-- ==== Sys2Proof/Word.lean ====
section
/-! DEFINITION. The word types: a byte of the frame buffer and a 64-bit command word (R60, R23). -/

namespace Sys2Proof

/-- One byte of the frame buffer (R23). -/
abbrev Byte := BitVec 8

/-- One command word as the host issues it (R60). -/
abbrev CmdWord := BitVec 64

end Sys2Proof
end

