-- ==== Sys2Proof/Syntax.lean ====
section
/-! DEFINITION. The syntax: the 24 operations of R62 with the operand fields their rows name (R60, R65), and
the names that selector numbers stand for (R66, R67, R68, R116). -/

namespace Sys2Proof

/-- The operations, one constructor per row of R62. An operand is the field of the command word, unsigned and
unscaled (R65). A selector stays a number here: a word with an unassigned selector decodes, and it is the
operation that refuses it (R64). -/
inductive Instr where
  /-- `RDCSR csr` (R190). -/
  | rdcsr (csr : BitVec 8)
  /-- `WRCSR csr, value` (R191). -/
  | wrcsr (csr : BitVec 8) (value : BitVec 48)
  /-- `ACC off, len` (R96). -/
  | acc (off len : BitVec 16)
  /-- `ACCPH len` (R97). -/
  | accph (len : BitVec 16)
  /-- `FIN` (R98). -/
  | fin
  /-- `GETF field` (R140). -/
  | getf (fid : BitVec 8)
  /-- `SETF field, value` (R141). -/
  | setf (fid : BitVec 8) (value : BitVec 48)
  /-- `OFFS layer` (R142). -/
  | offs (lid : BitVec 8)
  /-- `PLEN layer` (R143). -/
  | plen (lid : BitVec 8)
  /-- `LDBE n, off` (R144). -/
  | ldbe (n : BitVec 8) (off : BitVec 16)
  /-- `STBE n, off, value` (R145). -/
  | stbe (n : BitVec 8) (off : BitVec 16) (value : BitVec 32)
  /-- `DHOPT code` (R146). -/
  | dhopt (code : BitVec 8)
  /-- `ISIP` (R161). -/
  | isip
  /-- `ISUCAST` (R162). -/
  | isucast
  /-- `ISBCAST` (R163). -/
  | isbcast
  /-- `ISARPREQ` (R164). -/
  | isarpreq
  /-- `ISPING` (R165). -/
  | isping
  /-- `ISUDP` (R166). -/
  | isudp
  /-- `ISTCP` (R167). -/
  | istcp
  /-- `ISOFFER` (R169). -/
  | isoffer
  /-- `ISACK` (R170). -/
  | isack
  /-- `ISSYNACK` (R172). -/
  | issynack
  /-- `ISPSHACK` (R173). -/
  | ispshack
  /-- `ISFINACK` (R174). -/
  | isfinack
  deriving DecidableEq, Repr

/-- The control registers of R66. -/
inductive Csr where
  | cap | len | localMac | localIp | sum | res | st
  deriving DecidableEq, Repr

/-- The five layer bases a field can hang from (R116). -/
inductive LayerBase where
  | frame | net | ippay | udppay | tcppay
  deriving DecidableEq, Repr

/-- The nine layers of R68. -/
inductive Layer where
  | frame | net | ipopt | ippay | tcpopt | udppay | tcppay | dhopt | mqbody
  deriving DecidableEq, Repr

/-- The names of the sixty fields of R67. -/
inductive Field where
  | ethDst | ethSrc | ethType
  | ipVer | ipIhl | ipTos | ipTotlen | ipId | ipFlagsfrag | ipTtl | ipProto | ipCsum | ipSrc | ipDst
  | arpHtype | arpPtype | arpHlen | arpPlen | arpOp | arpSha | arpSpa | arpTha | arpTpa
  | icmpType | icmpCode | icmpCsum | icmpId | icmpSeq
  | udpSport | udpDport | udpLen | udpCsum
  | tcpSport | tcpDport | tcpSeq | tcpAck | tcpOffflags | tcpDoff | tcpFlags | tcpWin | tcpCsum | tcpUrg | tcpOpt16
  | dhOp | dhHtype | dhHlen | dhHops | dhXid | dhSecs | dhFlags | dhCiaddr | dhYiaddr | dhSiaddr | dhGiaddr
  | dhChaddrMac | dhMagic
  | mqCtrl | mqType | mqFlags | mqRlen
  deriving DecidableEq, Repr

/-- One row of the field table of R128. -/
structure FieldRow where
  /-- The field id, the `sel` of GETF and SETF. -/
  fid : BitVec 8
  /-- The field's name. -/
  name : Field
  /-- The layer base the field hangs from. -/
  base : LayerBase
  /-- The offset of its container from that base. -/
  offset : Nat
  /-- The number of bytes of its container. -/
  container : Nat
  /-- The most significant bit of the field inside the container. -/
  hi : Nat
  /-- The least significant bit of the field inside the container. -/
  lo : Nat
  deriving DecidableEq, Repr

end Sys2Proof
end

