-- ==== Sys2Proof/Machine/Selectors.lean ====
section
/-! DEFINITION. What the selector numbers of a command word stand for: CSR numbers (R66), field ids with the
field table (R67, R128), layer ids (R68) and byte counts (R69). -/

namespace Sys2Proof.Machine

/-- CSR numbers (R66); 7 to 255 are unassigned. -/
def csrOfNum (csr : BitVec 8) : Option Csr :=
  match csr.toNat with
  | 0 => some .cap
  | 1 => some .len
  | 2 => some .localMac
  | 3 => some .localIp
  | 4 => some .sum
  | 5 => some .res
  | 6 => some .st
  | _ => none

/-- Layer ids (R68); 9 to 255 are unassigned. -/
def layerOfNum (lid : BitVec 8) : Option Layer :=
  match lid.toNat with
  | 0 => some .frame
  | 1 => some .net
  | 2 => some .ipopt
  | 3 => some .ippay
  | 4 => some .tcpopt
  | 5 => some .udppay
  | 6 => some .tcppay
  | 7 => some .dhopt
  | 8 => some .mqbody
  | _ => none

/-- Byte counts of LDBE and STBE (R69): 1, 2 and 4, nothing else. -/
def byteCount (n : BitVec 8) : Option Nat :=
  match n.toNat with
  | 1 => some 1
  | 2 => some 2
  | 4 => some 4
  | _ => none

/-- The Ethernet rows of the field table (R111, R128). -/
def ethernetFields : List FieldRow :=
  [ ⟨0x00, .ethDst, .frame, 0, 6, 47, 0⟩
  , ⟨0x01, .ethSrc, .frame, 6, 6, 47, 0⟩
  , ⟨0x02, .ethType, .frame, 12, 2, 15, 0⟩ ]

/-- The IPv4 rows of the field table (R117, R128). -/
def ipv4Fields : List FieldRow :=
  [ ⟨0x10, .ipVer, .net, 0, 1, 7, 4⟩
  , ⟨0x11, .ipIhl, .net, 0, 1, 3, 0⟩
  , ⟨0x12, .ipTos, .net, 1, 1, 7, 0⟩
  , ⟨0x13, .ipTotlen, .net, 2, 2, 15, 0⟩
  , ⟨0x14, .ipId, .net, 4, 2, 15, 0⟩
  , ⟨0x15, .ipFlagsfrag, .net, 6, 2, 15, 0⟩
  , ⟨0x16, .ipTtl, .net, 8, 1, 7, 0⟩
  , ⟨0x17, .ipProto, .net, 9, 1, 7, 0⟩
  , ⟨0x18, .ipCsum, .net, 10, 2, 15, 0⟩
  , ⟨0x19, .ipSrc, .net, 12, 4, 31, 0⟩
  , ⟨0x1A, .ipDst, .net, 16, 4, 31, 0⟩ ]

/-- The ARP rows of the field table (R118, R128). -/
def arpFields : List FieldRow :=
  [ ⟨0x20, .arpHtype, .net, 0, 2, 15, 0⟩
  , ⟨0x21, .arpPtype, .net, 2, 2, 15, 0⟩
  , ⟨0x22, .arpHlen, .net, 4, 1, 7, 0⟩
  , ⟨0x23, .arpPlen, .net, 5, 1, 7, 0⟩
  , ⟨0x24, .arpOp, .net, 6, 2, 15, 0⟩
  , ⟨0x25, .arpSha, .net, 8, 6, 47, 0⟩
  , ⟨0x26, .arpSpa, .net, 14, 4, 31, 0⟩
  , ⟨0x27, .arpTha, .net, 18, 6, 47, 0⟩
  , ⟨0x28, .arpTpa, .net, 24, 4, 31, 0⟩ ]

/-- The ICMP rows of the field table (R119, R128). -/
def icmpFields : List FieldRow :=
  [ ⟨0x30, .icmpType, .ippay, 0, 1, 7, 0⟩
  , ⟨0x31, .icmpCode, .ippay, 1, 1, 7, 0⟩
  , ⟨0x32, .icmpCsum, .ippay, 2, 2, 15, 0⟩
  , ⟨0x33, .icmpId, .ippay, 4, 2, 15, 0⟩
  , ⟨0x34, .icmpSeq, .ippay, 6, 2, 15, 0⟩ ]

/-- The UDP rows of the field table (R120, R128). -/
def udpFields : List FieldRow :=
  [ ⟨0x40, .udpSport, .ippay, 0, 2, 15, 0⟩
  , ⟨0x41, .udpDport, .ippay, 2, 2, 15, 0⟩
  , ⟨0x42, .udpLen, .ippay, 4, 2, 15, 0⟩
  , ⟨0x43, .udpCsum, .ippay, 6, 2, 15, 0⟩ ]

/-- The TCP rows of the field table (R121, R128). -/
def tcpFields : List FieldRow :=
  [ ⟨0x50, .tcpSport, .ippay, 0, 2, 15, 0⟩
  , ⟨0x51, .tcpDport, .ippay, 2, 2, 15, 0⟩
  , ⟨0x52, .tcpSeq, .ippay, 4, 4, 31, 0⟩
  , ⟨0x53, .tcpAck, .ippay, 8, 4, 31, 0⟩
  , ⟨0x54, .tcpOffflags, .ippay, 12, 2, 15, 0⟩
  , ⟨0x55, .tcpDoff, .ippay, 12, 2, 15, 12⟩
  , ⟨0x56, .tcpFlags, .ippay, 12, 2, 5, 0⟩
  , ⟨0x57, .tcpWin, .ippay, 14, 2, 15, 0⟩
  , ⟨0x58, .tcpCsum, .ippay, 16, 2, 15, 0⟩
  , ⟨0x59, .tcpUrg, .ippay, 18, 2, 15, 0⟩
  , ⟨0x5A, .tcpOpt16, .ippay, 20, 2, 15, 0⟩ ]

/-- The DHCP rows of the field table (R123, R128). -/
def dhcpFields : List FieldRow :=
  [ ⟨0x60, .dhOp, .udppay, 0, 1, 7, 0⟩
  , ⟨0x61, .dhHtype, .udppay, 1, 1, 7, 0⟩
  , ⟨0x62, .dhHlen, .udppay, 2, 1, 7, 0⟩
  , ⟨0x63, .dhHops, .udppay, 3, 1, 7, 0⟩
  , ⟨0x64, .dhXid, .udppay, 4, 4, 31, 0⟩
  , ⟨0x65, .dhSecs, .udppay, 8, 2, 15, 0⟩
  , ⟨0x66, .dhFlags, .udppay, 10, 2, 15, 0⟩
  , ⟨0x67, .dhCiaddr, .udppay, 12, 4, 31, 0⟩
  , ⟨0x68, .dhYiaddr, .udppay, 16, 4, 31, 0⟩
  , ⟨0x69, .dhSiaddr, .udppay, 20, 4, 31, 0⟩
  , ⟨0x6A, .dhGiaddr, .udppay, 24, 4, 31, 0⟩
  , ⟨0x6B, .dhChaddrMac, .udppay, 28, 6, 47, 0⟩
  , ⟨0x6C, .dhMagic, .udppay, 236, 4, 31, 0⟩ ]

/-- The MQTT rows of the field table (R126, R128). -/
def mqttFields : List FieldRow :=
  [ ⟨0x70, .mqCtrl, .tcppay, 0, 1, 7, 0⟩
  , ⟨0x71, .mqType, .tcppay, 0, 1, 7, 4⟩
  , ⟨0x72, .mqFlags, .tcppay, 0, 1, 3, 0⟩
  , ⟨0x73, .mqRlen, .tcppay, 1, 1, 7, 0⟩ ]

/-- The field table of R128, sixty rows. -/
def fieldTable : List FieldRow :=
  ethernetFields ++ ipv4Fields ++ arpFields ++ icmpFields ++ udpFields ++ tcpFields ++ dhcpFields ++ mqttFields

/-- The row of a field id; an id that is not in the table is unassigned (R67). -/
def fieldRow (fid : BitVec 8) : Option FieldRow :=
  fieldTable.find? (fun r => r.fid == fid)

/-- The width of a field in bits, `hi - lo + 1` (R128). -/
def fieldWidth (r : FieldRow) : Nat := r.hi - r.lo + 1

/-- R128's second extra condition: MQ_RLEN holds values 0 to 127 only (R126). -/
def fieldLimit (r : FieldRow) : Nat :=
  if r.name = .mqRlen then 128 else 2 ^ fieldWidth r

end Sys2Proof.Machine
end

