-- ==== Sys2Proof/WellFormed.lean ====
section
/-! DEFINITION. Well-formed instructions: the checks of R64 that need the command word alone. An instruction
that fails one still decodes; executing it raises Operand (R64, R204). The one check of R64 that needs the
machine, a WRCSR LEN above BUF_CAP, is not here (DEDUCED, log entry 10). -/

namespace Sys2Proof

open Machine

/-- WRCSR's operand checks but for LEN against BUF_CAP (R191): the register must be writable and the value
must fit. -/
def wrcsrFits (csr : BitVec 8) (value : BitVec 48) : Bool :=
  match csrOfNum csr with
  | some .len => value.toNat < 2 ^ 16
  | some .localMac => true
  | some .localIp => value.toNat < 2 ^ 32
  | _ => false

/-- SETF's operand checks (R141): the field id is assigned and the value fits the field. -/
def setfFits (fid : BitVec 8) (value : BitVec 48) : Bool :=
  match fieldRow fid with
  | some r => value.toNat < fieldLimit r
  | none => false

/-- STBE's operand checks (R145): the byte count is 1, 2 or 4 and the value fits in it. -/
def stbeFits (n : BitVec 8) (value : BitVec 32) : Bool :=
  match byteCount n with
  | some k => value.toNat < 2 ^ (8 * k)
  | none => false

/-- The operand checks of R64 that need no state. -/
def Instr.wellFormed : Instr → Bool
  | .rdcsr csr => (csrOfNum csr).isSome
  | .wrcsr csr value => wrcsrFits csr value
  | .acc _ _ => true
  | .accph _ => true
  | .fin => true
  | .getf fid => (fieldRow fid).isSome
  | .setf fid value => setfFits fid value
  | .offs lid => (layerOfNum lid).isSome
  | .plen lid => (layerOfNum lid).isSome
  | .ldbe n _ => (byteCount n).isSome
  | .stbe n _ value => stbeFits n value
  | .dhopt code => code != 255
  | .isip => true
  | .isucast => true
  | .isbcast => true
  | .isarpreq => true
  | .isping => true
  | .isudp => true
  | .istcp => true
  | .isoffer => true
  | .isack => true
  | .issynack => true
  | .ispshack => true
  | .isfinack => true

end Sys2Proof
end

