-- ==== Sys2Proof/Decode.lean ====
section
/-! DEFINITION. Decoding a command word (R60 to R63), total and rejecting by name, and after it the encoder,
both written from the table of R62. -/

namespace Sys2Proof

/-- Why a word is illegal: the two cases of R63. -/
inductive Reject where
  /-- Its `op` is none of the 24 values of R62. -/
  | unknownOp
  /-- Its `op` is in the table and a reserved bit of that row is 1. -/
  | reservedBit
  deriving DecidableEq, Repr

/-- `op`, bits 63:56 (R60). -/
def opField (w : CmdWord) : BitVec 8 := w.extractLsb' 56 8

/-- `sel`, bits 55:48 (R60). -/
def selField (w : CmdWord) : BitVec 8 := w.extractLsb' 48 8

/-- `arg`, bits 47:0 (R60). -/
def argField (w : CmdWord) : BitVec 48 := w.extractLsb' 0 48

/-- `a2 = arg[47:32]` (R60). -/
def a2Field (w : CmdWord) : BitVec 16 := w.extractLsb' 32 16

/-- `a1 = arg[31:16]` (R60). -/
def a1Field (w : CmdWord) : BitVec 16 := w.extractLsb' 16 16

/-- `a0 = arg[15:0]` (R60). -/
def a0Field (w : CmdWord) : BitVec 16 := w.extractLsb' 0 16

/-- `v32 = arg[31:0]` (R60). -/
def v32Field (w : CmdWord) : BitVec 32 := w.extractLsb' 0 32

/-- One row of the opcode map of R62: the mask, the match value, and the operation with its operand fields. -/
structure OpcodeRow where
  /-- The bits of a word that the row fixes: its opcode and its reserved bits. -/
  mask : CmdWord
  /-- What those bits must be. -/
  value : CmdWord
  /-- The operation, its operands taken from the word (R65). -/
  build : CmdWord → Instr

/-- The control rows of R62 (opcodes 0x0_). -/
def controlRows : List OpcodeRow :=
  [ ⟨0xFF00FFFFFFFFFFFF, 0x0100000000000000, fun w => .rdcsr (selField w)⟩
  , ⟨0xFF00000000000000, 0x0200000000000000, fun w => .wrcsr (selField w) (argField w)⟩ ]

/-- The CSUM rows of R62 (opcodes 0x1_). -/
def csumRows : List OpcodeRow :=
  [ ⟨0xFFFFFFFF00000000, 0x1000000000000000, fun w => .acc (a1Field w) (a0Field w)⟩
  , ⟨0xFFFFFFFFFFFF0000, 0x1100000000000000, fun w => .accph (a0Field w)⟩
  , ⟨0xFFFFFFFFFFFFFFFF, 0x1200000000000000, fun _ => .fin⟩ ]

/-- The CODEC rows of R62 (opcodes 0x2_). -/
def codecRows : List OpcodeRow :=
  [ ⟨0xFF00FFFFFFFFFFFF, 0x2000000000000000, fun w => .getf (selField w)⟩
  , ⟨0xFF00000000000000, 0x2100000000000000, fun w => .setf (selField w) (argField w)⟩
  , ⟨0xFF00FFFFFFFFFFFF, 0x2200000000000000, fun w => .offs (selField w)⟩
  , ⟨0xFF00FFFFFFFFFFFF, 0x2300000000000000, fun w => .plen (selField w)⟩
  , ⟨0xFF00FFFFFFFF0000, 0x2400000000000000, fun w => .ldbe (selField w) (a0Field w)⟩
  , ⟨0xFF00000000000000, 0x2500000000000000, fun w => .stbe (selField w) (a2Field w) (v32Field w)⟩
  , ⟨0xFF00FFFFFFFFFFFF, 0x2600000000000000, fun w => .dhopt (selField w)⟩ ]

/-- The CLS rows of R62 (opcodes 0x3_). -/
def clsRows : List OpcodeRow :=
  [ ⟨0xFFFFFFFFFFFFFFFF, 0x3000000000000000, fun _ => .isip⟩
  , ⟨0xFFFFFFFFFFFFFFFF, 0x3100000000000000, fun _ => .isucast⟩
  , ⟨0xFFFFFFFFFFFFFFFF, 0x3200000000000000, fun _ => .isbcast⟩
  , ⟨0xFFFFFFFFFFFFFFFF, 0x3300000000000000, fun _ => .isarpreq⟩
  , ⟨0xFFFFFFFFFFFFFFFF, 0x3400000000000000, fun _ => .isping⟩
  , ⟨0xFFFFFFFFFFFFFFFF, 0x3500000000000000, fun _ => .isudp⟩
  , ⟨0xFFFFFFFFFFFFFFFF, 0x3600000000000000, fun _ => .istcp⟩
  , ⟨0xFFFFFFFFFFFFFFFF, 0x3700000000000000, fun _ => .isoffer⟩
  , ⟨0xFFFFFFFFFFFFFFFF, 0x3800000000000000, fun _ => .isack⟩
  , ⟨0xFFFFFFFFFFFFFFFF, 0x3900000000000000, fun _ => .issynack⟩
  , ⟨0xFFFFFFFFFFFFFFFF, 0x3A00000000000000, fun _ => .ispshack⟩
  , ⟨0xFFFFFFFFFFFFFFFF, 0x3B00000000000000, fun _ => .isfinack⟩ ]

/-- The opcode map of R62, 24 rows. -/
def opcodeTable : List OpcodeRow := controlRows ++ csumRows ++ codecRows ++ clsRows

/-- Decoding (R61): the row is looked up by `op`; every bit that the row marks reserved must be 0. It reads no
state. -/
def decode (w : CmdWord) : Except Reject Instr :=
  match opcodeTable.find? (fun r => opField r.value == opField w) with
  | none => .error .unknownOp
  | some r => if w &&& r.mask = r.value then .ok (r.build w) else .error .reservedBit

/-- The word whose four parts are given, most significant first (R60). -/
def wordOf (opc s : BitVec 8) (v : BitVec 48) : CmdWord := opc ++ s ++ v

/-- The word of an instruction (R60, R62): its opcode, its operands in their places, every reserved bit 0. -/
def encode : Instr → CmdWord
  | .rdcsr csr => wordOf 0x01 csr 0
  | .wrcsr csr value => wordOf 0x02 csr value
  | .acc off len => wordOf 0x10 0 (0#16 ++ off ++ len)
  | .accph len => wordOf 0x11 0 (0#32 ++ len)
  | .fin => wordOf 0x12 0 0
  | .getf fid => wordOf 0x20 fid 0
  | .setf fid value => wordOf 0x21 fid value
  | .offs lid => wordOf 0x22 lid 0
  | .plen lid => wordOf 0x23 lid 0
  | .ldbe n off => wordOf 0x24 n (0#32 ++ off)
  | .stbe n off value => wordOf 0x25 n (off ++ value)
  | .dhopt code => wordOf 0x26 code 0
  | .isip => wordOf 0x30 0 0
  | .isucast => wordOf 0x31 0 0
  | .isbcast => wordOf 0x32 0 0
  | .isarpreq => wordOf 0x33 0 0
  | .isping => wordOf 0x34 0 0
  | .isudp => wordOf 0x35 0 0
  | .istcp => wordOf 0x36 0 0
  | .isoffer => wordOf 0x37 0 0
  | .isack => wordOf 0x38 0 0
  | .issynack => wordOf 0x39 0 0
  | .ispshack => wordOf 0x3A 0 0
  | .isfinack => wordOf 0x3B 0 0

/-- The command word whose low `nbits` bits are those of `w`, every bit above them 0. A command is one word and
lies in no memory (R42, R44), so there is no byte order to apply. -/
def tableWord (nbits w : Nat) : CmdWord := BitVec.ofNat 64 (w % 2 ^ nbits)

/-- The instruction the decoder reads from the `nbits` bits of `w`, numbered as spec/opcode_table.json numbers
them; none where it refuses. -/
def decodeTableWord (nbits w : Nat) : Option Instr :=
  match decode (tableWord nbits w) with
  | .ok i => some i
  | .error _ => none

end Sys2Proof
end

