-- ==== Sys2Proof/Config.lean ====
section
/-! DEFINITION. The parameters the spec leaves open (R8): `BUF_CAP` and `FB_INIT`. Both are opaque, so
whatever is proved of the model holds for every value they may have. -/

namespace Sys2Proof.Config

/-- `FB_INIT` (R8, R232): the byte that address `a` of FB holds after reset number `era`, until something
writes it. "A model treats it as any value". `era` counts reset events, because R230 leaves FB unspecified
after every one of them (log entries 2 and 3). -/
opaque fbInit (era a : Nat) : Byte

/-- `BUF_CAP - 1`; R8 allows every `BUF_CAP` from 1 to 65535 and fixes none (log entry 1). -/
opaque bufCapMinusOne : Fin 65535

/-- `BUF_CAP` (R8): the number of bytes of the frame buffer, 1 to 65535. -/
def bufCap : Nat := bufCapMinusOne.val + 1

end Sys2Proof.Config
end

