-- ==== Sys2Proof/Machine/State.lean ====
section
/-! DEFINITION. The state of the block (R20), the ways an operation ends (R12, R13, R200), and the state after
reset (R33, R230). -/

namespace Sys2Proof.Machine

/-- The five exceptions of R200 and R201. Raising one is no stop of the machine: it is a next state (R203). -/
inductive Exc where
  /-- The command word does not decode. -/
  | illegal
  /-- A selector is unassigned or a value does not fit. -/
  | operand
  /-- An access would touch an FB address at or above LEN. -/
  | bounds
  /-- A field the operation must trust to find its way is impossible. -/
  | format
  /-- The DHCP option asked for is not before the terminator. -/
  | notFound
  deriving DecidableEq, Repr

/-- What the outside world can do to the block: issue a command word (R22), or reset it (R230). -/
inductive PortEvent where
  /-- The host issues one command word. -/
  | command (w : CmdWord)
  /-- The platform resets the block between two commands. -/
  | reset
  /-- The host issues a command word and the platform resets the block while it executes. -/
  | resetDuring (w : CmdWord)
  deriving DecidableEq, Repr

/-- The written bytes of the frame buffer, as a list of cells in canonical form (`Memory.wf` of Ops). -/
abbrev Memory := List Host.Cell

/-- The architectural state of R20, and two fields of the model's own: `era` and `port`. -/
structure State where
  /-- `FB` (R23): the bytes that differ from what an unlisted address reads as. -/
  fb : Memory
  /-- The model's own: how many resets there have been. It selects the unknown content of FB (R232, R230);
  no operation reads it but through the bytes nothing has written (DESIGN CHOICE, log entry 3). -/
  era : Nat
  /-- `LEN`, CSR 1 (R24). -/
  len : BitVec 16
  /-- `LOCAL_MAC`, CSR 2 (R25). -/
  localMac : BitVec 48
  /-- `LOCAL_IP`, CSR 3 (R26). -/
  localIp : BitVec 32
  /-- `SUM`, CSR 4 (R27). -/
  sum : BitVec 32
  /-- `RES`, CSR 5 (R28). -/
  res : BitVec 64
  /-- `ST`, CSR 6 (R29). -/
  st : BitVec 4
  /-- `CAP`, CSR 0 (R30): `BUF_CAP`; nothing writes it. -/
  cap : BitVec 16
  /-- The model's own: what the outside world does to the block, oldest first. The block has no program
  counter; it executes the command words in the order the host issues them (R22, R51) (DESIGN CHOICE, log entry 4). -/
  port : List PortEvent
  deriving DecidableEq, Repr

/-- Why the machine stops. -/
inductive Fault where
  /-- Raised by an access to FB below LEN but at or above BUF_CAP, where no byte exists (R23, R40). It needs
  LEN > CAP, which WRCSR refuses (R191), so no run meets it. Safe: the model stops there
  (DESIGN CHOICE, log entry 5). -/
  | noSuchByte
  deriving DecidableEq, Repr

/-- Why an instruction is refused. -/
inductive Refusal where
  /-- Raised by `exec` alone, for an instruction whose meaning is not written yet; no arm does. Safe. -/
  | notModelled (mnemonic : String)
  deriving DecidableEq, Repr

/-- How an operation ends when it does not return: it raises an exception, or the machine faults. -/
inductive Stop where
  | raise (e : Exc)
  | fault (f : Fault)
  deriving DecidableEq, Repr

/-- The machine after reset (R33, R230): FB unspecified, so nothing is listed; every register at the value R33
gives it; no command issued yet (log entry 8). -/
def State.reset : State where
  fb := []
  era := 0
  len := 0
  localMac := 0
  localIp := 0
  sum := 0
  res := 0
  st := 0
  cap := BitVec.ofNat 16 Config.bufCap
  port := []

end Sys2Proof.Machine
end

