-- ==== Sys2Proof/Machine/Flags.lean ====
section
/-! DEFINITION. The block's one status flag, the cause code in ST (R29, R201). There are no condition codes. -/

namespace Sys2Proof.Machine

/-- ST after an operation that returned: OK (R13, R201). -/
def okCode : BitVec 4 := 0

/-- The cause codes of R201. -/
def causeCode : Exc → BitVec 4
  | .illegal => 1
  | .operand => 2
  | .bounds => 3
  | .format => 4
  | .notFound => 5

end Sys2Proof.Machine
end

