-- ==== Sys2Proof/Machine/Ops.lean ====
section
/-! DEFINITION. The named operations every instruction is built from: the frame buffer (R11, R23), the two ways
an operation ends (R12, R13, R203), and the control registers by name (R10, R66). -/

namespace Sys2Proof.Machine

/-! ### The frame buffer -/

/-- What an address that nothing has written reads as: `FB_INIT` (R232), a value nothing fixes
(DESIGN CHOICE, log entry 2). -/
def Memory.unlisted (era a : Nat) : Byte := Config.fbInit era a

/-- The entry of an address in the list. -/
def Memory.entry : Memory → Nat → Option Byte
  | [], _ => none
  | (k, b) :: m, a => if a = k then some b else Memory.entry m a

/-- `FB[a]` (R10): the byte of the frame buffer at address `a`, with no check. -/
def Memory.read (era : Nat) (m : Memory) (a : Nat) : Byte :=
  match Memory.entry m a with
  | some b => b
  | none => Memory.unlisted era a

/-- The list with its entry for `a`, if there is one, taken out. -/
def Memory.remove (m : Memory) (a : Nat) : Memory :=
  m.filter (fun c => c.1 != a)

/-- The list with `(a, b)` as its entry for `a`, addresses rising. -/
def Memory.put : Memory → Nat → Byte → Memory
  | [], a, b => [(a, b)]
  | (k, c) :: m, a, b =>
    if a < k then (a, b) :: (k, c) :: m
    else if a = k then (a, b) :: m
    else (k, c) :: Memory.put m a b

/-- `FB[a] <- b`, keeping the list in its canonical form: a byte equal to what an unlisted address reads as is
not listed. -/
def Memory.write (era : Nat) (m : Memory) (a : Nat) (b : Byte) : Memory :=
  if b = Memory.unlisted era a then Memory.remove m a else Memory.put m a b

/-- The canonical form: addresses strictly rising, and no entry equal to what an unlisted address reads as. -/
abbrev Memory.wf (era : Nat) (m : Memory) : Prop :=
  m.Pairwise (fun x y => x.1 < y.1) ∧ ∀ c ∈ m, c.2 ≠ Memory.unlisted era c.1

/-- `FB[a], FB[a+1], ..., FB[a+n-1]`. -/
def Memory.readBytes (era : Nat) (m : Memory) : Nat → Nat → List Byte
  | _, 0 => []
  | a, n + 1 => Memory.read era m a :: Memory.readBytes era m (a + 1) n

/-- The bytes of a list stored one after another from address `a` up. -/
def Memory.writeBytes (era : Nat) : Memory → Nat → List Byte → Memory
  | m, _, [] => m
  | m, a, b :: bs => Memory.writeBytes era (Memory.write era m a b) (a + 1) bs

/-- The number that bytes in network order stand for, the first most significant (R11, R41). -/
def beValue (bs : List Byte) : Nat :=
  bs.foldl (fun v b => v * 256 + b.toNat) 0

/-- The `n` bytes of a number in network order (R11, R41): byte `i` is `v[8(n-1-i)+7 : 8(n-1-i)]`. -/
def beBytes : Nat → Nat → List Byte
  | 0, _ => []
  | n + 1, v => BitVec.ofNat 8 (v / 256 ^ n) :: beBytes n v

/-! ### Raising and returning -/

/-- What a piece of an operation's pseudocode comes to: a value, or the first `raise` it reaches (R12, R204). -/
abbrev Eval (α : Type) := Except Stop α

/-- `raise E` (R12). -/
def raise {α : Type} (e : Exc) : Eval α := .error (.raise e)

/-- `if c: raise E`. -/
def raiseIf (c : Prop) [Decidable c] (e : Exc) : Eval Unit :=
  if c then raise e else .ok ()

/-- The value of a table look-up, or `raise E` where the table has none. -/
def orRaise {α : Type} (o : Option α) (e : Exc) : Eval α :=
  match o with
  | some x => .ok x
  | none => raise e

/-- TAKING AN EXCEPTION (R203): ST gets the cause code, RES gets 0, nothing else changes. There is no handler, no
saved state and no return from it (R206, R207). -/
def State.raised (s : State) (e : Exc) : State :=
  { s with res := 0, st := causeCode e }

/-- `return v` (R13): RES gets `v` zero-extended to 64 bits, ST gets OK. -/
def State.returned (s : State) (v : Nat) : State :=
  { s with res := BitVec.ofNat 64 v, st := okCode }

/-- The end of an operation that started in `s` and writes state besides RES and ST: a return keeps what it has
written, an exception leaves `s` but for RES and ST (R203). -/
def conclude (s : State) (r : Eval (State × Nat)) : Host.Outcome State Fault Refusal :=
  match r with
  | .ok (t, v) => .next (t.returned v)
  | .error (.raise e) => .next (s.raised e)
  | .error (.fault f) => .fault f

/-- The end of an operation that writes RES and ST and nothing else. -/
def answer (s : State) (r : Eval Nat) : Host.Outcome State Fault Refusal :=
  match r with
  | .ok v => .next (s.returned v)
  | .error (.raise e) => .next (s.raised e)
  | .error (.fault f) => .fault f

/-! ### Bounded access -/

/-- The check of every access to the `n` bytes from `a` (R11): Bounds if one lies at or above LEN, "never
BUF_CAP". Below LEN a byte exists as long as LEN is at most CAP (R24). -/
def checkRange (s : State) (a n : Nat) : Eval Unit :=
  if s.len.toNat < a + n then raise .bounds
  else if n ≠ 0 ∧ s.cap.toNat < a + n then .error (.fault .noSuchByte)
  else .ok ()

/-- The bytes of a region that lies below LEN. -/
def readRange (s : State) (a n : Nat) : Eval (List Byte) := do
  checkRange s a n
  .ok (Memory.readBytes s.era s.fb a n)

/-- `MemRead(a, n)` (R11). -/
def memRead (s : State) (a n : Nat) : Eval Nat := do
  let bs ← readRange s a n
  .ok (beValue bs)

/-- `MemWrite(a, n, v)` (R11). -/
def memWrite (s : State) (a n v : Nat) : Eval State := do
  checkRange s a n
  .ok { s with fb := Memory.writeBytes s.era s.fb a (beBytes n v) }

/-! ### Control registers -/

/-- The value of a control register (R190). -/
def readCsr (s : State) : Csr → Nat
  | .cap => s.cap.toNat
  | .len => s.len.toNat
  | .localMac => s.localMac.toNat
  | .localIp => s.localIp.toNat
  | .sum => s.sum.toNat
  | .res => s.res.toNat
  | .st => s.st.toNat

/-- Writing a control register (R191): a value that does not fit, and a read-only register, are refused. -/
def writeCsr (s : State) (c : Csr) (v : Nat) : Eval State :=
  match c with
  | .len => if s.cap.toNat < v then raise .operand else .ok { s with len := BitVec.ofNat 16 v }
  | .localMac => .ok { s with localMac := BitVec.ofNat 48 v }
  | .localIp => if 2 ^ 32 ≤ v then raise .operand else .ok { s with localIp := BitVec.ofNat 32 v }
  | .cap => raise .operand
  | .sum => raise .operand
  | .res => raise .operand
  | .st => raise .operand

/-- The reset event (R230, R33): every register at its reset value, FB unspecified anew. CAP is a constant, and
what the outside world does next is not the block's state (DESIGN CHOICE, log entry 3). -/
def State.afterReset (s : State) : State :=
  { State.reset with era := s.era + 1, cap := s.cap, port := s.port }

end Sys2Proof.Machine
end

