-- ==== Sys2Proof/Machine/Checksum.lean ====
section
/-! DEFINITION. The checksum unit CSUM: its functions (R91 to R95) and the operations ACC, ACCPH and FIN
(R96 to R98). -/

namespace Sys2Proof.Machine

/-! ### The functions -/

/-- `Words` of R91: the bytes of a region paired from its first, each pair big-endian, an odd last byte "the high
byte of a zero-padded word". -/
def words : List Byte → List Nat
  | [] => []
  | [b] => [b.toNat * 256]
  | b :: c :: bs => (b.toNat * 256 + c.toNat) :: words bs

/-- `WordSum` of R92, of the bytes of a region: the sum of its words as a natural number. -/
def wordSum (bs : List Byte) : Nat := (words bs).sum

/-- One pass of the loop of R93. -/
def foldPass (s : BitVec 32) : BitVec 32 := (s &&& 0xFFFF#32) + (s >>> 16)

/-- The loop of R93, at most `n` passes; two are enough (DEDUCED, log entry 7). -/
def foldLoop : Nat → BitVec 32 → BitVec 32
  | 0, s => s
  | n + 1, s => if s >>> 16 = 0 then s else foldLoop n (foldPass s)

/-- `Fold` of R93, a 16-bit value. "The loop runs at most twice". -/
def fold (s : BitVec 32) : BitVec 16 := (foldLoop 2 s).setWidth 16

/-- `Fin` of R94: "the one's complement of the low 16 bits". -/
def finish (s : BitVec 32) : BitVec 16 := ~~~ fold s

/-- `PseudoSum(proto, len)` of R95: the sum of the six words of the pseudo-header, the four address words taken
from FB 26 to 33. -/
def pseudoSum (s : State) (proto len : Nat) : Eval Nat := do
  let w0 ← memRead s 26 2
  let w1 ← memRead s 28 2
  let w2 ← memRead s 30 2
  let w3 ← memRead s 32 2
  .ok (w0 + w1 + w2 + w3 + proto + len)

/-- Whether a sum of words validates: `Fin(t) == 0` (R100), `t` taken modulo 2^32. -/
def validates (t : Nat) : Bool := finish (BitVec.ofNat 32 t) == 0

/-- `SUM <- (SUM + t) mod 2^32; return SUM` (R96, R97): the carry out of bit 31 is lost (R102). -/
def addToSum (s : State) (t : Nat) : State × Nat :=
  let u := s.sum + BitVec.ofNat 32 t
  ({ s with sum := u }, u.toNat)

/-- `SUM <- 0`. -/
def clearSum (s : State) : State := { s with sum := 0 }

/-! ### The operations -/

/-- ACC off, len (R96). -/
def execAcc (off len : BitVec 16) (s : State) : Host.Outcome State Fault Refusal :=
  conclude s do
    let bs ← readRange s off.toNat len.toNat
    .ok (addToSum s (wordSum bs))

/-- ACCPH len (R97). -/
def execAccph (len : BitVec 16) (s : State) : Host.Outcome State Fault Refusal :=
  conclude s do
    let p ← memRead s 23 1
    let t ← pseudoSum s p len.toNat
    .ok (addToSum s t)

/-- FIN (R98). -/
def execFin (s : State) : Host.Outcome State Fault Refusal :=
  conclude s (.ok (clearSum s, (finish s.sum).toNat))

end Sys2Proof.Machine
end

