-- ==== Sys2Proof/Machine/Operands.lean ====
section
/-! DEFINITION. Where operands lie in the frame: the offset functions (R112 to R116), the slices of a container
(R128), the layers (R129) and the DHCP option scan (R131). Arithmetic is in natural numbers, and in integers
where a length may come out negative (R9, R143). -/

namespace Sys2Proof.Machine

/-! ### Offset functions -/

/-- `v[hi:lo]` (R9). -/
def slice (v hi lo : Nat) : Nat := v / 2 ^ lo % 2 ^ (hi - lo + 1)

/-- `c[hi:lo] <- v`, the other bits of `c` keeping their value (R141). -/
def putSlice (c hi lo v : Nat) : Nat :=
  c / 2 ^ (hi + 1) * 2 ^ (hi + 1) + v * 2 ^ lo + c % 2 ^ lo

/-- `Ihl()` (R112): the IPv4 header length in words, at least 5. -/
def ihl (s : State) : Eval Nat := do
  let b ← memRead s 14 1
  let v := slice b 3 0
  raiseIf (v < 5) .format
  .ok v

/-- `IPP()` (R113): the address of the IPv4 payload. -/
def ipp (s : State) : Eval Nat := do
  let i ← ihl s
  .ok (14 + 4 * i)

/-- `Doff()` (R114): the TCP data offset in words, at least 5. -/
def doff (s : State) : Eval Nat := do
  let p ← ipp s
  let b ← memRead s (p + 12) 1
  let v := slice b 7 4
  raiseIf (v < 5) .format
  .ok v

/-- `TCPP()` (R115): the address of the TCP payload. -/
def tcpp (s : State) : Eval Nat := do
  let p ← ipp s
  let d ← doff s
  .ok (p + 4 * d)

/-- `DHB()` (R115): the address of the UDP payload, where a DHCP message starts. -/
def dhb (s : State) : Eval Nat := do
  let p ← ipp s
  .ok (p + 8)

/-- `Base(b)` (R116). -/
def baseOf (s : State) : LayerBase → Eval Nat
  | .frame => .ok 0
  | .net => .ok 14
  | .ippay => ipp s
  | .udppay => dhb s
  | .tcppay => tcpp s

/-! ### Fields -/

/-- R128's first extra condition: TCP_OPT16 is present only when `Doff() >= 6` (R121). -/
def optionPresent (s : State) (r : FieldRow) : Eval Unit :=
  if r.name = .tcpOpt16 then do
    let d ← doff s
    raiseIf (d < 6) .format
  else .ok ()

/-- The address of a field's container: its base, computed from the frame as it is, plus its offset (R140,
R141). -/
def fieldAddress (s : State) (r : FieldRow) : Eval Nat := do
  let ba ← baseOf s r.base
  optionPresent s r
  .ok (ba + r.offset)

/-! ### Layers -/

/-- `TOT` (R129): the IPv4 total length. -/
def totalLength (s : State) : Eval Nat := memRead s 16 2

/-- `ULEN` (R129): the UDP length. -/
def udpLength (s : State) : Eval Nat := do
  let p ← ipp s
  memRead s (p + 4) 2

/-- `RL` (R129): the MQTT remaining length, Format where its bit 7 is set. -/
def remainingLength (s : State) : Eval Nat := do
  let t ← tcpp s
  let rl ← memRead s (t + 1) 1
  raiseIf (128 ≤ rl) .format
  .ok rl

/-- `Off(lid)` (R129): the address where a layer starts. -/
def layerOffset (s : State) : Layer → Eval Nat
  | .frame => .ok 0
  | .net => .ok 14
  | .ipopt => do
    let _ ← ihl s
    .ok 34
  | .ippay => ipp s
  | .tcpopt => do
    let _ ← doff s
    let p ← ipp s
    .ok (p + 20)
  | .udppay => do
    let p ← ipp s
    .ok (p + 8)
  | .tcppay => tcpp s
  | .dhopt => do
    let p ← ipp s
    .ok (p + 248)
  | .mqbody => do
    let t ← tcpp s
    .ok (t + 2)

/-- `Len(lid)` (R129): the number of bytes the frame's own length fields give a layer, "an integer, possibly
negative" (R143). -/
def layerLength (s : State) : Layer → Eval Int
  | .frame => .ok s.len.toNat
  | .net => .ok (s.len.toNat - 14)
  | .ipopt => do
    let i ← ihl s
    .ok (4 * i - 20)
  | .ippay => do
    let t ← totalLength s
    let i ← ihl s
    .ok (t - 4 * i)
  | .tcpopt => do
    let d ← doff s
    .ok (4 * d - 20)
  | .udppay => do
    let u ← udpLength s
    .ok (u - 8)
  | .tcppay => do
    let t ← totalLength s
    let i ← ihl s
    let d ← doff s
    .ok (t - 4 * i - 4 * d)
  | .dhopt => do
    let u ← udpLength s
    .ok (u - 248)
  | .mqbody => do
    let r ← remainingLength s
    .ok r

/-- The start of a layer, checked against LEN: the first three lines of OFFS and of PLEN (R142, R143). -/
def layerStart (s : State) (l : Layer) : Eval Nat := do
  let o ← layerOffset s l
  raiseIf (s.len.toNat < o) .bounds
  .ok o

/-! ### The option scan -/

/-- The DHCP magic cookie (R127). -/
def magicCookie : Nat := 0x63825363

/-- The loop of `FindOpt` (R131) from address `p`, at most `n` passes. After `LEN / 2` passes `p` is at or above
LEN, where the loop's first line raises Bounds; running out of passes answers the same
(DEDUCED, log entry 6). -/
def scanOptions (s : State) (code : Nat) : Nat → Nat → Eval (Nat × Nat)
  | 0, _ => raise .bounds
  | n + 1, p => do
    let c ← memRead s p 1
    raiseIf (c = 255) .notFound
    let l ← memRead s (p + 1) 1
    if c = code then do
      raiseIf (s.len.toNat < p + 2 + l) .bounds
      .ok (p + 2, l)
    else scanOptions s code n (p + 2 + l)

/-- `FindOpt(code)` (R131): the address and the length of the value of the first option with that code. -/
def findOption (s : State) (code : Nat) : Eval (Nat × Nat) := do
  let d ← dhb s
  let m ← memRead s (d + 236) 4
  raiseIf (m ≠ magicCookie) .format
  scanOptions s code (s.len.toNat + 1) (d + 240)

end Sys2Proof.Machine
end

