-- ==== Sys2Proof/Machine/Classifier.lean ====
section
/-! DEFINITION. The classifier CLS: the twelve predicates (R160 to R175). Each tests the conditions of its bullet
in their order and stops at the first that is false (R160). The three validating predicates set SUM to 0 on
every path (R175): they start from the state with SUM cleared. -/

namespace Sys2Proof.Machine

/-! ### Common parts -/

/-- What a predicate returns: 1 for true, 0 for false (R13). -/
def verdict (b : Bool) : Nat := if b then 1 else 0

/-- The two length-checked lines that end ISUDP and ISTCP (R166, R167): the `len` bytes from `b` must lie below
LEN, and their words and the pseudo-header's must validate. -/
def segmentValidates (s : State) (proto b len : Nat) : Eval Bool := do
  raiseIf (s.len.toNat < b + len) .bounds
  let h ← pseudoSum s proto len
  let bs ← readRange s b len
  .ok (validates (h + wordSum bs))

/-- `DhcpType(want)` (R168): the subtype first, the hardware address second. -/
def dhcpType (s : State) (want : Nat) : Eval Bool := do
  let d ← dhb s
  let (va, l) ← findOption s 53
  raiseIf (l < 1) .format
  let ty ← memRead s va 1
  if ty ≠ want then .ok false
  else do
    let hw ← memRead s (d + 28) 6
    .ok (hw == s.localMac.toNat)

/-- `TcpFlags()` (R171): bits 5:0 of the packed field. -/
def tcpFlags (s : State) : Eval Nat := do
  let p ← ipp s
  let f ← memRead s (p + 12) 2
  .ok (slice f 5 0)

/-! ### Protocol identification and checksum validation -/

/-- The conditions of ISIP (R161). -/
def isIp (s : State) : Eval Bool := do
  let ty ← memRead s 12 2
  if ty ≠ 0x0800 then .ok false
  else do
    let i ← ihl s
    let h := 4 * i
    raiseIf (s.len.toNat < 14 + h) .bounds
    let bs ← readRange s 14 h
    .ok (validates (wordSum bs))

/-- ISIP (R161). -/
def execIsip (s : State) : Host.Outcome State Fault Refusal :=
  answer (clearSum s) ((isIp (clearSum s)).map verdict)

/-- The conditions of ISPING (R165). -/
def isPing (s : State) : Eval Bool := do
  let proto ← memRead s 23 1
  if proto ≠ 1 then .ok false
  else do
    let p ← ipp s
    let ty ← memRead s p 1
    .ok (ty == 8)

/-- ISPING (R165). -/
def execIsping (s : State) : Host.Outcome State Fault Refusal :=
  answer s ((isPing s).map verdict)

/-- The conditions of ISUDP (R166). -/
def isUdp (s : State) : Eval Bool := do
  let proto ← memRead s 23 1
  if proto ≠ 17 then .ok false
  else do
    let b ← ipp s
    let ul ← memRead s (b + 4) 2
    raiseIf (ul < 8) .format
    segmentValidates s 17 b ul

/-- ISUDP (R166). -/
def execIsudp (s : State) : Host.Outcome State Fault Refusal :=
  answer (clearSum s) ((isUdp (clearSum s)).map verdict)

/-- The conditions of ISTCP (R167). -/
def isTcp (s : State) : Eval Bool := do
  let proto ← memRead s 23 1
  if proto ≠ 6 then .ok false
  else do
    let i ← ihl s
    let tot ← memRead s 16 2
    raiseIf (tot < 4 * i + 20) .format
    segmentValidates s 6 (14 + 4 * i) (tot - 4 * i)

/-- ISTCP (R167). -/
def execIstcp (s : State) : Host.Outcome State Fault Refusal :=
  answer (clearSum s) ((isTcp (clearSum s)).map verdict)

/-! ### Address matching -/

/-- The condition of ISUCAST (R162). -/
def isUnicast (s : State) : Eval Bool := do
  let dst ← memRead s 30 4
  .ok (dst == s.localIp.toNat)

/-- ISUCAST (R162). -/
def execIsucast (s : State) : Host.Outcome State Fault Refusal :=
  answer s ((isUnicast s).map verdict)

/-- The condition of ISBCAST (R163). -/
def isBroadcast (s : State) : Eval Bool := do
  let dst ← memRead s 30 4
  .ok (dst == 0xFFFFFFFF)

/-- ISBCAST (R163). -/
def execIsbcast (s : State) : Host.Outcome State Fault Refusal :=
  answer s ((isBroadcast s).map verdict)

/-- The conditions of ISARPREQ (R164). -/
def isArpRequest (s : State) : Eval Bool := do
  let ty ← memRead s 12 2
  if ty ≠ 0x0806 then .ok false
  else do
    let opc ← memRead s 20 2
    if opc ≠ 1 then .ok false
    else do
      let tpa ← memRead s 38 4
      .ok (tpa == s.localIp.toNat)

/-- ISARPREQ (R164). -/
def execIsarpreq (s : State) : Host.Outcome State Fault Refusal :=
  answer s ((isArpRequest s).map verdict)

/-! ### DHCP message subtype -/

/-- ISOFFER (R169). -/
def execIsoffer (s : State) : Host.Outcome State Fault Refusal :=
  answer s ((dhcpType s 2).map verdict)

/-- ISACK (R170). -/
def execIsack (s : State) : Host.Outcome State Fault Refusal :=
  answer s ((dhcpType s 5).map verdict)

/-! ### TCP control-flag patterns -/

/-- Whether the six control flags are exactly a pattern (R171). -/
def flagsAre (s : State) (pattern : Nat) : Eval Bool := do
  let f ← tcpFlags s
  .ok (f == pattern)

/-- ISSYNACK (R172). -/
def execIssynack (s : State) : Host.Outcome State Fault Refusal :=
  answer s ((flagsAre s 0x12).map verdict)

/-- ISPSHACK (R173). -/
def execIspshack (s : State) : Host.Outcome State Fault Refusal :=
  answer s ((flagsAre s 0x18).map verdict)

/-- ISFINACK (R174). -/
def execIsfinack (s : State) : Host.Outcome State Fault Refusal :=
  answer s ((flagsAre s 0x11).map verdict)

end Sys2Proof.Machine
end

