-- ==== Sys2Proof/Machine/Codec.lean ====
section
/-! DEFINITION. The frame codec CODEC: GETF, SETF, OFFS, PLEN, LDBE, STBE and DHOPT (R140 to R146). -/

namespace Sys2Proof.Machine

/-- GETF field (R140). -/
def execGetf (fid : BitVec 8) (s : State) : Host.Outcome State Fault Refusal :=
  answer s do
    let r ← orRaise (fieldRow fid) .operand
    let a ← fieldAddress s r
    let c ← memRead s a r.container
    let v := slice c r.hi r.lo
    raiseIf (r.name = .mqRlen ∧ 128 ≤ v) .format
    .ok v

/-- SETF field, value (R141). -/
def execSetf (fid : BitVec 8) (value : BitVec 48) (s : State) : Host.Outcome State Fault Refusal :=
  conclude s do
    let r ← orRaise (fieldRow fid) .operand
    raiseIf (fieldLimit r ≤ value.toNat) .operand
    let a ← fieldAddress s r
    let c ← memRead s a r.container
    let t ← memWrite s a r.container (putSlice c r.hi r.lo value.toNat)
    .ok (t, value.toNat)

/-- OFFS layer (R142). -/
def execOffs (lid : BitVec 8) (s : State) : Host.Outcome State Fault Refusal :=
  answer s do
    let l ← orRaise (layerOfNum lid) .operand
    layerStart s l

/-- PLEN layer (R143). -/
def execPlen (lid : BitVec 8) (s : State) : Host.Outcome State Fault Refusal :=
  answer s do
    let l ← orRaise (layerOfNum lid) .operand
    let o ← layerStart s l
    let p ← layerLength s l
    raiseIf (p < 0) .format
    raiseIf (s.len.toNat < o + p.toNat) .bounds
    .ok p.toNat

/-- LDBE n, off (R144). -/
def execLdbe (n : BitVec 8) (off : BitVec 16) (s : State) : Host.Outcome State Fault Refusal :=
  answer s do
    let k ← orRaise (byteCount n) .operand
    memRead s off.toNat k

/-- STBE n, off, value (R145). -/
def execStbe (n : BitVec 8) (off : BitVec 16) (value : BitVec 32) (s : State) :
    Host.Outcome State Fault Refusal :=
  conclude s do
    let k ← orRaise (byteCount n) .operand
    raiseIf (2 ^ (8 * k) ≤ value.toNat) .operand
    let t ← memWrite s off.toNat k value.toNat
    .ok (t, value.toNat)

/-- DHOPT code (R146): the option's length in bits 23:16 of RES, the address of its value in bits 15:0. -/
def execDhopt (code : BitVec 8) (s : State) : Host.Outcome State Fault Refusal :=
  answer s do
    raiseIf (code.toNat = 255) .operand
    let (va, l) ← findOption s code.toNat
    .ok (l * 65536 + va)

end Sys2Proof.Machine
end

