-- ==== Sys2Proof/Machine/Control.lean ====
section
/-! DEFINITION. Control register access: RDCSR and WRCSR (R190, R191). -/

namespace Sys2Proof.Machine

/-- RDCSR csr (R190): the value the register had before this operation. -/
def execRdcsr (csr : BitVec 8) (s : State) : Host.Outcome State Fault Refusal :=
  answer s do
    let c ← orRaise (csrOfNum csr) .operand
    .ok (readCsr s c)

/-- WRCSR csr, value (R191). -/
def execWrcsr (csr : BitVec 8) (value : BitVec 48) (s : State) : Host.Outcome State Fault Refusal :=
  conclude s do
    let c ← orRaise (csrOfNum csr) .operand
    let t ← writeCsr s c value.toNat
    .ok (t, value.toNat)

end Sys2Proof.Machine
end

