-- ==== Sys2Proof/Machine/Dispatch.lean ====
section
/-! DEFINITION. The dispatch: one arm per instruction, each one direct call of its meaning. -/

namespace Sys2Proof.Machine

def exec (i : Instr) (s : State) : Host.Outcome State Fault Refusal :=
  match i with
  | .rdcsr csr => Sys2Proof.Machine.execRdcsr csr s
  | .wrcsr csr value => Sys2Proof.Machine.execWrcsr csr value s
  | .acc off len => Sys2Proof.Machine.execAcc off len s
  | .accph len => Sys2Proof.Machine.execAccph len s
  | .fin => Sys2Proof.Machine.execFin s
  | .getf fid => Sys2Proof.Machine.execGetf fid s
  | .setf fid value => Sys2Proof.Machine.execSetf fid value s
  | .offs lid => Sys2Proof.Machine.execOffs lid s
  | .plen lid => Sys2Proof.Machine.execPlen lid s
  | .ldbe n off => Sys2Proof.Machine.execLdbe n off s
  | .stbe n off value => Sys2Proof.Machine.execStbe n off value s
  | .dhopt code => Sys2Proof.Machine.execDhopt code s
  | .isip => Sys2Proof.Machine.execIsip s
  | .isucast => Sys2Proof.Machine.execIsucast s
  | .isbcast => Sys2Proof.Machine.execIsbcast s
  | .isarpreq => Sys2Proof.Machine.execIsarpreq s
  | .isping => Sys2Proof.Machine.execIsping s
  | .isudp => Sys2Proof.Machine.execIsudp s
  | .istcp => Sys2Proof.Machine.execIstcp s
  | .isoffer => Sys2Proof.Machine.execIsoffer s
  | .isack => Sys2Proof.Machine.execIsack s
  | .issynack => Sys2Proof.Machine.execIssynack s
  | .ispshack => Sys2Proof.Machine.execIspshack s
  | .isfinack => Sys2Proof.Machine.execIsfinack s

end Sys2Proof.Machine
end

