-- ==== Sys2Proof/Machine/Fetch.lean ====
section
/-! DEFINITION. How the block takes its next command: there is no program counter and no instruction memory (R22);
the host issues one command word at a time and the engine executes it to completion (R18, R51). -/

namespace Sys2Proof.Machine

/-- Executing one command word: it is decoded, and a word that does not decode raises Illegal and "is never
executed at all" (R61, R63, R203). -/
def execWord (w : CmdWord) (s : State) : Host.Outcome State Fault Refusal :=
  match decode w with
  | .ok i => exec i s
  | .error _ => .next (s.raised .illegal)

/-- What the block does about one event from outside: a command word is executed; a reset gives the reset state,
also where it arrives while a command executes, which then "has no visible effect" (R230). -/
def takeEvent (e : PortEvent) (s : State) : Host.Outcome State Fault Refusal :=
  match e with
  | .command w => execWord w s
  | .reset => .next s.afterReset
  | .resetDuring _ => .next s.afterReset

/-- A run of command words in the order of issue (R18, R51): "the left-to-right composition of the step function
over the command list". -/
def runWords : List CmdWord → State → Host.Outcome State Fault Refusal
  | [], s => .next s
  | w :: ws, s =>
    match execWord w s with
    | .next t => runWords ws t
    | .fault f => .fault f
    | .refused r => .refused r

/-- The response the host receives after an operation (R18): RES and ST. -/
def State.response (s : State) : BitVec 64 × BitVec 4 := (s.res, s.st)

end Sys2Proof.Machine
end

