-- ==== Sys2Proof/Safety.lean ====
section
/-! DEFINITION. What counts as a safe state, and the words the statements use: the bytes of FB as numbers, which
operations may raise what (R202), and when two states look alike to an operation. -/

namespace Sys2Proof.Safety

open Sys2Proof.Machine

/-- The invariant of every state a run reaches: CAP is a legal BUF_CAP (R8), LEN is at most CAP (R24), ST is a
cause code (R29), RES is 0 after every exception (R28), and FB is in canonical form with no byte at or above
BUF_CAP (R23). -/
structure Inv (s : State) : Prop where
  cap_pos : 1 ≤ s.cap.toNat
  len_le : s.len.toNat ≤ s.cap.toNat
  st_legal : s.st.toNat ≤ 5
  res_of_raise : s.st ≠ okCode → s.res = 0
  fb_wf : Memory.wf s.era s.fb
  fb_below : ∀ c ∈ s.fb, c.1 < s.cap.toNat

/-- `FB[a]` as a number (R10). -/
def byteAt (s : State) (a : Nat) : Nat := (Memory.read s.era s.fb a).toNat

/-- The big-endian number of the `n` bytes of FB from `a` (R11), with no check. -/
def numberAt (s : State) (a n : Nat) : Nat := beValue (Memory.readBytes s.era s.fb a n)

/-- The low nibble of FB[14], the IPv4 header length in words (R112), with no check. -/
def ihlNibble (s : State) : Nat := byteAt s 14 % 16

/-- The address of the IPv4 payload that the nibble gives (R113), with no check. -/
def payloadAt (s : State) : Nat := 14 + 4 * ihlNibble s

/-- The TCP data offset in words (R114), with no check. -/
def doffNibble (s : State) : Nat := byteAt s (payloadAt s + 12) / 16

/-- The address of the TCP payload (R115), with no check. -/
def tcpPayloadAt (s : State) : Nat := payloadAt s + 4 * doffNibble s

/-- What `Ihl()` raises (R112), if anything: its byte is not supplied, or the nibble is below 5. -/
def ihlFail (s : State) : Option Exc :=
  if s.len.toNat < 15 then some .bounds
  else if ihlNibble s < 5 then some .format
  else none

/-- What `Doff()` raises (R114), if anything: what `Ihl()` raises; or its byte is not supplied, or the nibble is
below 5. -/
def doffFail (s : State) : Option Exc :=
  match ihlFail s with
  | some e => some e
  | none =>
    if s.len.toNat < payloadAt s + 13 then some .bounds
    else if doffNibble s < 5 then some .format
    else none

/-- What finding a layer base raises (R116), if anything. -/
def baseFail (s : State) : LayerBase → Option Exc
  | .frame => none
  | .net => none
  | .ippay => ihlFail s
  | .udppay => ihlFail s
  | .tcppay => doffFail s

/-- Where a layer base is (R116), with no check. -/
def baseAt (s : State) : LayerBase → Nat
  | .frame => 0
  | .net => 14
  | .ippay => payloadAt s
  | .udppay => payloadAt s + 8
  | .tcppay => tcpPayloadAt s

/-- What finding a field raises (R140, R141), if anything: what its base raises; for TCP_OPT16 also what `Doff()`
raises, and Format where the header has no option word. -/
def fieldFail (s : State) (r : FieldRow) : Option Exc :=
  if r.name = .tcpOpt16 then
    match doffFail s with
    | some e => some e
    | none => if doffNibble s < 6 then some .format else none
  else baseFail s r.base

/-- What finding a layer raises (R129), if anything, before its start is compared with LEN. -/
def layerFail (s : State) : Layer → Option Exc
  | .frame => none
  | .net => none
  | .ipopt => ihlFail s
  | .ippay => ihlFail s
  | .tcpopt => doffFail s
  | .udppay => ihlFail s
  | .tcppay => doffFail s
  | .dhopt => ihlFail s
  | .mqbody => doffFail s

/-- `Off(lid)` of R129, with no check. -/
def layerAt (s : State) : Layer → Nat
  | .frame => 0
  | .net => 14
  | .ipopt => 34
  | .ippay => payloadAt s
  | .tcpopt => payloadAt s + 20
  | .udppay => payloadAt s + 8
  | .tcppay => tcpPayloadAt s
  | .dhopt => payloadAt s + 248
  | .mqbody => tcpPayloadAt s + 2

/-- `Len(lid)` of R129, with no check: `TOT` is FB 16 and 17, `ULEN` the bytes at IPP + 4, `RL` the byte at
TCPP + 1. -/
def layerSize (s : State) : Layer → Int
  | .frame => s.len.toNat
  | .net => s.len.toNat - 14
  | .ipopt => 4 * ihlNibble s - 20
  | .ippay => numberAt s 16 2 - 4 * ihlNibble s
  | .tcpopt => 4 * doffNibble s - 20
  | .udppay => numberAt s (payloadAt s + 4) 2 - 8
  | .tcppay => numberAt s 16 2 - 4 * ihlNibble s - 4 * doffNibble s
  | .dhopt => numberAt s (payloadAt s + 4) 2 - 248
  | .mqbody => byteAt s (tcpPayloadAt s + 1)

/-- The sum of the words of the `n` bytes of FB from `a` (R91, R92), with no check. -/
def wordSumAt (s : State) (a n : Nat) : Nat := wordSum (Memory.readBytes s.era s.fb a n)

/-- The sum of the six words of the pseudo-header of the packet in FB (R95), with no check. -/
def pseudoSumAt (s : State) (proto len : Nat) : Nat :=
  numberAt s 26 2 + numberAt s 28 2 + numberAt s 30 2 + numberAt s 32 2 + proto + len

/-- `CK(B)` of R99: the Internet checksum of a byte string. R93 defines `Fold` for 32-bit values alone, and no rule says
what `CK` is where the sum of the words is 2^32 or more; there this takes the sum modulo 2^32 (DESIGN CHOICE, log
entry 13). No operation uses it. -/
def checksum (bs : List Byte) : BitVec 16 := finish (BitVec.ofNat 32 (wordSum bs))

/-- Options `(code, length)` lie one after another in FB from `p`, the next free address being `q` (R124). -/
def OptionsAt (s : State) : Nat → List (Nat × Nat) → Nat → Prop
  | p, [], q => p = q
  | p, (c, l) :: os, q => byteAt s p = c ∧ byteAt s (p + 1) = l ∧ OptionsAt s (p + 2 + l) os q

/-- What `FindOpt` raises before it looks at an option (R131), if anything: what `Ihl()` raises; or the cookie is
not supplied, or it is not there. -/
def cookieFail (s : State) : Option Exc :=
  match ihlFail s with
  | some e => some e
  | none =>
    if s.len.toNat < payloadAt s + 248 then some .bounds
    else if numberAt s (payloadAt s + 244) 4 ≠ 0x63825363 then some .format
    else none

/-- A DHCP message with its magic cookie is in FB (R123), and its options before address `q` are `os` (R124). -/
def OptionsBefore (s : State) (os : List (Nat × Nat)) (q : Nat) : Prop :=
  cookieFail s = none ∧ OptionsAt s (payloadAt s + 248) os q

/-! ### The field table as R128 prints it -/

/-- One line of R128: fid, name, base, offset, container, the two ends of the slice, width. -/
abbrev LayoutLine := BitVec 8 × Field × LayerBase × Nat × Nat × Nat × Nat × Nat

/-- The lines of R128 whose base is FRAME. -/
def layoutFrame : List LayoutLine :=
  [ (0x00, .ethDst, .frame, 0, 6, 47, 0, 48)
  , (0x01, .ethSrc, .frame, 6, 6, 47, 0, 48)
  , (0x02, .ethType, .frame, 12, 2, 15, 0, 16) ]

/-- The lines of R128 whose base is NET. -/
def layoutNet : List LayoutLine :=
  [ (0x10, .ipVer, .net, 0, 1, 7, 4, 4)
  , (0x11, .ipIhl, .net, 0, 1, 3, 0, 4)
  , (0x12, .ipTos, .net, 1, 1, 7, 0, 8)
  , (0x13, .ipTotlen, .net, 2, 2, 15, 0, 16)
  , (0x14, .ipId, .net, 4, 2, 15, 0, 16)
  , (0x15, .ipFlagsfrag, .net, 6, 2, 15, 0, 16)
  , (0x16, .ipTtl, .net, 8, 1, 7, 0, 8)
  , (0x17, .ipProto, .net, 9, 1, 7, 0, 8)
  , (0x18, .ipCsum, .net, 10, 2, 15, 0, 16)
  , (0x19, .ipSrc, .net, 12, 4, 31, 0, 32)
  , (0x1A, .ipDst, .net, 16, 4, 31, 0, 32)
  , (0x20, .arpHtype, .net, 0, 2, 15, 0, 16)
  , (0x21, .arpPtype, .net, 2, 2, 15, 0, 16)
  , (0x22, .arpHlen, .net, 4, 1, 7, 0, 8)
  , (0x23, .arpPlen, .net, 5, 1, 7, 0, 8)
  , (0x24, .arpOp, .net, 6, 2, 15, 0, 16)
  , (0x25, .arpSha, .net, 8, 6, 47, 0, 48)
  , (0x26, .arpSpa, .net, 14, 4, 31, 0, 32)
  , (0x27, .arpTha, .net, 18, 6, 47, 0, 48)
  , (0x28, .arpTpa, .net, 24, 4, 31, 0, 32) ]

/-- The lines of R128 whose base is IPPAY. -/
def layoutIppay : List LayoutLine :=
  [ (0x30, .icmpType, .ippay, 0, 1, 7, 0, 8)
  , (0x31, .icmpCode, .ippay, 1, 1, 7, 0, 8)
  , (0x32, .icmpCsum, .ippay, 2, 2, 15, 0, 16)
  , (0x33, .icmpId, .ippay, 4, 2, 15, 0, 16)
  , (0x34, .icmpSeq, .ippay, 6, 2, 15, 0, 16)
  , (0x40, .udpSport, .ippay, 0, 2, 15, 0, 16)
  , (0x41, .udpDport, .ippay, 2, 2, 15, 0, 16)
  , (0x42, .udpLen, .ippay, 4, 2, 15, 0, 16)
  , (0x43, .udpCsum, .ippay, 6, 2, 15, 0, 16)
  , (0x50, .tcpSport, .ippay, 0, 2, 15, 0, 16)
  , (0x51, .tcpDport, .ippay, 2, 2, 15, 0, 16)
  , (0x52, .tcpSeq, .ippay, 4, 4, 31, 0, 32)
  , (0x53, .tcpAck, .ippay, 8, 4, 31, 0, 32)
  , (0x54, .tcpOffflags, .ippay, 12, 2, 15, 0, 16)
  , (0x55, .tcpDoff, .ippay, 12, 2, 15, 12, 4)
  , (0x56, .tcpFlags, .ippay, 12, 2, 5, 0, 6)
  , (0x57, .tcpWin, .ippay, 14, 2, 15, 0, 16)
  , (0x58, .tcpCsum, .ippay, 16, 2, 15, 0, 16)
  , (0x59, .tcpUrg, .ippay, 18, 2, 15, 0, 16)
  , (0x5A, .tcpOpt16, .ippay, 20, 2, 15, 0, 16) ]

/-- The lines of R128 whose base is UDPPAY. -/
def layoutUdppay : List LayoutLine :=
  [ (0x60, .dhOp, .udppay, 0, 1, 7, 0, 8)
  , (0x61, .dhHtype, .udppay, 1, 1, 7, 0, 8)
  , (0x62, .dhHlen, .udppay, 2, 1, 7, 0, 8)
  , (0x63, .dhHops, .udppay, 3, 1, 7, 0, 8)
  , (0x64, .dhXid, .udppay, 4, 4, 31, 0, 32)
  , (0x65, .dhSecs, .udppay, 8, 2, 15, 0, 16)
  , (0x66, .dhFlags, .udppay, 10, 2, 15, 0, 16)
  , (0x67, .dhCiaddr, .udppay, 12, 4, 31, 0, 32)
  , (0x68, .dhYiaddr, .udppay, 16, 4, 31, 0, 32)
  , (0x69, .dhSiaddr, .udppay, 20, 4, 31, 0, 32)
  , (0x6A, .dhGiaddr, .udppay, 24, 4, 31, 0, 32)
  , (0x6B, .dhChaddrMac, .udppay, 28, 6, 47, 0, 48)
  , (0x6C, .dhMagic, .udppay, 236, 4, 31, 0, 32) ]

/-- The lines of R128 whose base is TCPPAY. -/
def layoutTcppay : List LayoutLine :=
  [ (0x70, .mqCtrl, .tcppay, 0, 1, 7, 0, 8)
  , (0x71, .mqType, .tcppay, 0, 1, 7, 4, 4)
  , (0x72, .mqFlags, .tcppay, 0, 1, 3, 0, 4)
  , (0x73, .mqRlen, .tcppay, 1, 1, 7, 0, 8) ]

/-- The sixty lines of R128, written down apart from the table the machine uses. -/
def layout : List LayoutLine :=
  layoutFrame ++ layoutNet ++ layoutIppay ++ layoutUdppay ++ layoutTcppay

/-! ### Runs, raises and views -/

/-- A list of operations in the order of issue (R51). -/
def runInstrs : List Instr → State → Host.Outcome State Fault Refusal
  | [], s => .next s
  | i :: is, s =>
    match exec i s with
    | .next t => runInstrs is t
    | .fault f => .fault f
    | .refused r => .refused r

/-- The exceptions each operation can raise, Illegal apart (R202). -/
def raises : Instr → List Exc
  | .rdcsr _ => [.operand]
  | .wrcsr _ _ => [.operand]
  | .acc _ _ => [.bounds]
  | .accph _ => [.bounds]
  | .fin => []
  | .getf _ => [.operand, .bounds, .format]
  | .setf _ _ => [.operand, .bounds, .format]
  | .offs _ => [.operand, .bounds, .format]
  | .plen _ => [.operand, .bounds, .format]
  | .ldbe _ _ => [.operand, .bounds]
  | .stbe _ _ _ => [.operand, .bounds]
  | .dhopt _ => [.operand, .bounds, .format, .notFound]
  | .isip => [.bounds, .format]
  | .isucast => [.bounds]
  | .isbcast => [.bounds]
  | .isarpreq => [.bounds]
  | .isping => [.bounds, .format]
  | .isudp => [.bounds, .format]
  | .istcp => [.bounds, .format]
  | .isoffer => [.bounds, .format, .notFound]
  | .isack => [.bounds, .format, .notFound]
  | .issynack => [.bounds, .format]
  | .ispshack => [.bounds, .format]
  | .isfinack => [.bounds, .format]

/-- The validating predicates (R17): the three that set SUM to 0 on every path (R175). -/
def validating (i : Instr) : Bool := i = .isip || i = .isudp || i = .istcp

/-- The twelve predicates of the classifier (R160). -/
def predicates : List Instr :=
  [.isip, .isucast, .isbcast, .isarpreq, .isping, .isudp, .istcp, .isoffer, .isack, .issynack, .ispshack,
    .isfinack]

/-- Two states agree on what a predicate may look at (R175): FB below LEN, LEN, LOCAL_MAC and LOCAL_IP; and on CAP,
the constant. -/
structure SameView (s t : State) : Prop where
  len : s.len = t.len
  cap : s.cap = t.cap
  localMac : s.localMac = t.localMac
  localIp : s.localIp = t.localIp
  fb : ∀ a, a < s.len.toNat → byteAt s a = byteAt t a

/-- Two states agree on every register, and on FB below LEN; what FB holds at or above LEN may differ (R23). -/
structure SameBelowLen (s t : State) : Prop extends SameView s t where
  sum : s.sum = t.sum
  res : s.res = t.res
  st : s.st = t.st

/-- A predicate is true in a state: it returns 1 with ST = OK (R176). -/
def Holds (i : Instr) (s : State) : Prop :=
  ∃ t, exec i s = .next t ∧ t.res = 1 ∧ t.st = okCode

end Sys2Proof.Safety
end

