-- ==== Sys2Proof/Certificates/Slice0/Obligations.lean ====
section
/-! DEFINITION. The statements for the provers. -/

open Sys2Proof Sys2Proof.Machine Sys2Proof.Safety

/-! ### Reset, steps and runs -/

/-- The state after reset (R33, R230). CAP is BUF_CAP, between 1 and 65535 (R8), an opaque constant of Config (the
model's choice, log entry 1). FB is unspecified: each byte is `FB_INIT` (R232), an opaque constant of Config (the
model's choice, log entry 2). -/
def Obligations.ResetStateIsR33 : Prop :=
  State.reset.len = 0 ∧ State.reset.localMac = 0 ∧ State.reset.localIp = 0 ∧ State.reset.sum = 0 ∧
  State.reset.res = 0 ∧ State.reset.st = 0 ∧ State.reset.cap.toNat = Config.bufCap ∧
  1 ≤ Config.bufCap ∧ Config.bufCap ≤ 65535 ∧
  ∀ a, Memory.read State.reset.era State.reset.fb a = Config.fbInit 0 a

/-- The invariant holds after reset. Its clause on the form of the list of bytes is the model's choice (log entry 2). -/
def Obligations.InvHoldsAtReset : Prop := Inv State.reset

/-- Every step keeps the invariant, whatever the outside world does: CAP legal, LEN at most CAP, ST a cause code,
RES 0 after an exception, FB in canonical form (the model's choice, log entry 2) and below BUF_CAP. -/
def Obligations.StepKeepsInv : Prop :=
  ∀ s t : State, Inv s → step s = .next t → Inv t

/-- From every state of the invariant the machine runs for any number of steps, never stopping, and ends in a state
of the invariant. -/
def Obligations.RunsNeverStop : Prop :=
  ∀ (k : Nat) (s : State), Inv s → ∃ t : State, Host.Core.run Sys2Proof.core k s = .next t ∧ Inv t

/-- Every one of the 2^64 words, in every state with LEN at most CAP, gives a next state. -/
def Obligations.EveryWordCompletes : Prop :=
  ∀ (w : CmdWord) (s : State), s.len.toNat ≤ s.cap.toNat → ∃ t, execWord w s = .next t

/-- A step at a command word that decodes runs the instruction it decodes to, with the word taken off the port
(that the host's words stand in a port is the model's choice, log entry 4). -/
def Obligations.StepRunsDecoded : Prop :=
  ∀ (s : State) (w : CmdWord) (rest : List PortEvent) (i : Instr),
    s.port = .command w :: rest → decode w = .ok i → step s = exec i { s with port := rest }

/-- A word issued by withFetchWord is executed by the very next step, in the state it was issued in
(log entry 4: the model's way to issue a word). -/
def Obligations.IssuedWordRunsNext : Prop :=
  ∀ (s : State) (w : CmdWord), step (s.withFetchWord 64 w.toNat) = execWord w s

/-- R213, R230: with nothing at the port the block holds its state; a reset, also during a command, gives the reset
state, with CAP kept and FB unspecified anew (log entry 3: each reset has an `FB_INIT` of its own). -/
def Obligations.IdleAndResetSteps : Prop :=
  ∀ (s : State) (rest : List PortEvent) (w : CmdWord),
    (s.port = [] → step s = .next s) ∧
    (s.port = .reset :: rest ∨ s.port = .resetDuring w :: rest →
      ∃ t, step s = .next t ∧ t.len = 0 ∧ t.localMac = 0 ∧ t.localIp = 0 ∧ t.sum = 0 ∧ t.res = 0 ∧ t.st = 0 ∧
        t.cap = s.cap ∧ t.port = rest ∧ ∀ a, Memory.read t.era t.fb a = Config.fbInit (s.era + 1) a)

/-- R51: a run over the words at the port is the left-to-right composition of the execution of the words. -/
def Obligations.PortRunIsComposition : Prop :=
  ∀ (ws : List CmdWord) (s : State),
    Host.Core.run Sys2Proof.core ws.length { s with port := ws.map .command } = runWords ws { s with port := [] }

/-! ### Encoding -/

/-- Decoding the word of an instruction gives the instruction back, for every instruction and every operand. -/
def Obligations.DecodeOfEncode : Prop := ∀ i : Instr, decode (encode i) = .ok i

/-- A word that decodes is the word of the instruction it decodes to: no word has a don't-care bit. -/
def Obligations.EncodeOfDecode : Prop :=
  ∀ (w : CmdWord) (i : Instr), decode w = .ok i → encode i = w

/-- R62: a word decodes to a row exactly when it has the row's match value under the row's mask. -/
def Obligations.WordDecodesByMaskAndMatch : Prop :=
  ∀ (w : CmdWord) (i : Instr), decode w = .ok i ↔ ∃ r ∈ opcodeTable, w &&& r.mask = r.value ∧ r.build w = i

/-- R63: a word is illegal in exactly two cases, and an illegal word changes nothing but RES and ST. -/
def Obligations.IllegalWordsChangeNothing : Prop :=
  (∀ w : CmdWord, (¬ ∃ i, decode w = .ok i) ↔
    (opField w ∉ ([0x01, 0x02, 0x10, 0x11, 0x12, 0x20, 0x21, 0x22, 0x23, 0x24, 0x25, 0x26, 0x30, 0x31, 0x32, 0x33,
        0x34, 0x35, 0x36, 0x37, 0x38, 0x39, 0x3A, 0x3B] : List (BitVec 8)) ∨
      ∃ r ∈ opcodeTable, opField r.value = opField w ∧ w &&& r.mask ≠ r.value)) ∧
  ∀ (w : CmdWord) (s : State), (¬ ∃ i, decode w = .ok i) → execWord w s = .next { s with res := 0, st := 1 }

/-- Words the spec writes out (R71, R97, R146, R169, R170) decode to the instructions it says they are. -/
def Obligations.SpecWordsDecode : Prop :=
  decode 0x10000000000E0014 = .ok (.acc 14 20) ∧
  decode 0x2116000000000040 = .ok (.setf 0x16 64) ∧
  decode 0x2502000C00000800 = .ok (.stbe 2 12 0x0800) ∧
  decode 0x02030000C0A80132 = .ok (.wrcsr 3 0xC0A80132) ∧
  decode 0x2042000000000000 = .ok (.getf 0x42) ∧
  decode 0x3000000000000000 = .ok .isip ∧
  decode 0x110000000000000B = .ok (.accph 11) ∧
  decode 0x2635000000000000 = .ok (.dhopt 53) ∧
  decode 0x3700000000000000 = .ok .isoffer ∧
  decode 0x3800000000000000 = .ok .isack

/-- An instruction that fails an operand check that needs no state raises Operand in every state. -/
def Obligations.IllFormedRaisesOperand : Prop :=
  ∀ (i : Instr) (s : State), i.wellFormed = false → exec i s = .next { s with res := 0, st := 2 }

/-- A well-formed instruction raises Operand in one case: WRCSR of a LEN above BUF_CAP. -/
def Obligations.WellFormedRaisesOperandOnlyForLen : Prop :=
  ∀ (i : Instr) (s t : State), i.wellFormed = true → exec i s = .next t → t.st = 2 →
    ∃ value, i = .wrcsr 1 value ∧ s.cap.toNat < value.toNat

/-! ### Control registers -/

/-- RDCSR returns the value its register had, changes nothing but RES and ST, and raises Operand for the numbers 7
to 255 (R190). -/
def Obligations.RdcsrReturnsTheRegister : Prop :=
  ∀ (csr : BitVec 8) (s : State),
    decode (0x01#8 ++ csr ++ 0#48) = .ok (.rdcsr csr) ∧
    exec (.rdcsr csr) s =
      if csr = 0 then .next { s with res := s.cap.setWidth 64, st := 0 }
      else if csr = 1 then .next { s with res := s.len.setWidth 64, st := 0 }
      else if csr = 2 then .next { s with res := s.localMac.setWidth 64, st := 0 }
      else if csr = 3 then .next { s with res := s.localIp.setWidth 64, st := 0 }
      else if csr = 4 then .next { s with res := s.sum.setWidth 64, st := 0 }
      else if csr = 5 then .next { s with res := s.res, st := 0 }
      else if csr = 6 then .next { s with res := s.st.setWidth 64, st := 0 }
      else .next { s with res := 0, st := 2 }

/-- WRCSR writes LEN, LOCAL_MAC or LOCAL_IP and returns the value; it refuses a LEN above BUF_CAP, a LOCAL_IP of 2^32
or more, a read-only register and an unassigned number, and then writes nothing but RES and ST (R191). -/
def Obligations.WrcsrWritesOrRefuses : Prop :=
  ∀ (csr : BitVec 8) (value : BitVec 48) (s : State),
    decode (0x02#8 ++ csr ++ value) = .ok (.wrcsr csr value) ∧
    exec (.wrcsr csr value) s =
      if csr = 1 ∧ value.toNat ≤ s.cap.toNat then
        .next { s with len := value.setWidth 16, res := value.setWidth 64, st := 0 }
      else if csr = 2 then .next { s with localMac := value, res := value.setWidth 64, st := 0 }
      else if csr = 3 ∧ value.toNat < 2 ^ 32 then
        .next { s with localIp := value.setWidth 32, res := value.setWidth 64, st := 0 }
      else .next { s with res := 0, st := 2 }

/-! ### The checksum unit -/

/-- `Words` pairs the bytes of a region from its first, each pair big-endian, an odd last byte padded with a zero low
byte (R91). -/
def Obligations.WordsPairBytesBigEndian : Prop :=
  ∀ (s : State) (off len : Nat),
    (words (Memory.readBytes s.era s.fb off len)).length = (len + 1) / 2 ∧
    ∀ i, i < (len + 1) / 2 →
      (words (Memory.readBytes s.era s.fb off len))[i]? =
        some (byteAt s (off + 2 * i) * 256 + if 2 * i + 1 < len then byteAt s (off + 2 * i + 1) else 0)

/-- `WordSum` is at most 0xFFFF times the number of words, so below 2^31 for any region of at most 65535 bytes
(R92). -/
def Obligations.WordSumIsBounded : Prop :=
  ∀ bs : List Byte, wordSum bs = (words bs).sum ∧ wordSum bs ≤ 0xFFFF * ((bs.length + 1) / 2) ∧
    (bs.length ≤ 65535 → wordSum bs < 2 ^ 31)

/-- `Fold`: the loop is over after two passes; the result is 0 exactly for 0, and otherwise the value in 1..0xFFFF
congruent to the sum modulo 0xFFFF (R93). -/
def Obligations.FoldIsResidueModFFFF : Prop :=
  ∀ s : BitVec 32,
    foldLoop 2 s >>> 16 = 0 ∧ (foldPass s).toNat ≤ 0x1FFFE ∧ (fold s).toNat = (foldLoop 2 s).toNat ∧
    (fold s = 0 ↔ s = 0) ∧
    (s ≠ 0 → 1 ≤ (fold s).toNat ∧ (fold s).toNat ≤ 0xFFFF ∧ (fold s).toNat % 0xFFFF = s.toNat % 0xFFFF)

/-- `Fin` is 0xFFFF minus `Fold`; it is 0xFFFF for 0 and 0 exactly where `Fold` is 0xFFFF (R94). -/
def Obligations.FinIsOnesComplementOfFold : Prop :=
  ∀ s : BitVec 32, (finish s).toNat = 0xFFFF - (fold s).toNat ∧ finish 0 = 0xFFFF ∧
    (finish s = 0 ↔ fold s = 0xFFFF)

/-- ACC adds the words of a region that lies below LEN into SUM modulo 2^32 and returns the new SUM; otherwise it
raises Bounds and SUM is unchanged (R96). -/
def Obligations.AccAddsTheRegion : Prop :=
  ∀ (off len : BitVec 16) (s : State), s.len.toNat ≤ s.cap.toNat →
    decode (0x10#8 ++ 0#8 ++ (0#16 ++ off ++ len)) = .ok (.acc off len) ∧
    exec (.acc off len) s =
      if s.len.toNat < off.toNat + len.toNat then .next { s with res := 0, st := 3 }
      else .next { s with
        sum := BitVec.ofNat 32 (s.sum.toNat + wordSumAt s off.toNat len.toNat)
        res := BitVec.ofNat 64 ((s.sum.toNat + wordSumAt s off.toNat len.toNat) % 2 ^ 32)
        st := 0 }

/-- ACCPH adds the four address words, the protocol byte and its operand into SUM modulo 2^32 and returns the new SUM;
with LEN below 34 it raises Bounds and SUM is unchanged (R97). -/
def Obligations.AccphAddsThePseudoHeader : Prop :=
  ∀ (len : BitVec 16) (s : State), s.len.toNat ≤ s.cap.toNat →
    decode (0x11#8 ++ 0#8 ++ (0#32 ++ len)) = .ok (.accph len) ∧
    exec (.accph len) s =
      if s.len.toNat < 34 then .next { s with res := 0, st := 3 }
      else .next { s with
        sum := BitVec.ofNat 32 (s.sum.toNat + pseudoSumAt s (byteAt s 23) len.toNat)
        res := BitVec.ofNat 64 ((s.sum.toNat + pseudoSumAt s (byteAt s 23) len.toNat) % 2 ^ 32)
        st := 0 }

/-- FIN returns 0xFFFF minus the folded SUM, sets SUM to 0, and never raises (R98). -/
def Obligations.FinReturnsAndClears : Prop :=
  decode 0x1200000000000000 = .ok .fin ∧
  ∀ s : State,
    exec .fin s = .next { s with sum := 0, res := BitVec.ofNat 64 (0xFFFF - (fold s.sum).toNat), st := 0 }

/-- The contract of R99: from SUM = 0, ACC of any list of regions, every one but the last of even length, the total
below 2^32, and then FIN, returns the Internet checksum of the concatenation of the regions and leaves SUM = 0. -/
def Obligations.AccSequenceIsTheInternetChecksum : Prop :=
  ∀ (regions : List (BitVec 16 × BitVec 16)) (s : State), s.len.toNat ≤ s.cap.toNat → s.sum = 0 →
    (∀ r ∈ regions, r.1.toNat + r.2.toNat ≤ s.len.toNat) →
    (∀ r ∈ regions.dropLast, r.2.toNat % 2 = 0) →
    (regions.map (fun r => wordSumAt s r.1.toNat r.2.toNat)).sum < 2 ^ 32 →
    ∃ t, runInstrs (regions.map (fun r => .acc r.1 r.2) ++ [.fin]) s = .next t ∧ t.sum = 0 ∧ t.st = 0 ∧
      t.res = (checksum (regions.flatMap
        (fun r => Memory.readBytes s.era s.fb r.1.toNat r.2.toNat))).setWidth 64

/-- R101: which 16-bit checksum fields validate. With `t` the sum of the other words, the field that the algorithm
computes does, and the field 0xFFFF does too where `t` folds to 0xFFFF; no other field does. -/
def Obligations.TwoZerosValidate : Prop :=
  ∀ (t : Nat) (field : BitVec 16), t + 0xFFFF < 2 ^ 32 →
    (finish (BitVec.ofNat 32 (t + field.toNat)) = 0 ↔
      field = finish (BitVec.ofNat 32 t) ∨ (fold (BitVec.ofNat 32 t) = 0xFFFF ∧ field = 0xFFFF))

/-- R239: with SUM 0 and an IPv4 header wholly supplied, clearing the header checksum field, summing the header with
ACC, FIN and storing its result makes ISIP true. -/
def Obligations.ResealedHeaderIsValid : Prop :=
  ∀ s : State, s.len.toNat ≤ s.cap.toNat → s.sum = 0 → numberAt s 12 2 = 0x0800 → ihlFail s = none →
    payloadAt s ≤ s.len.toNat →
    ∃ t1 t2 t3 t4 t5 : State,
      exec (.setf 0x18 0) s = .next t1 ∧
      exec (.acc 14 (BitVec.ofNat 16 (4 * ihlNibble s))) t1 = .next t2 ∧
      exec .fin t2 = .next t3 ∧
      exec (.setf 0x18 (t3.res.setWidth 48)) t3 = .next t4 ∧
      exec .isip t4 = .next t5 ∧ t5.res = 1 ∧ t5.st = 0

/-! ### The frame codec -/

/-- The field table is R128's, line by line: every field id has the name, base, offset, container, slice and width that
R128 prints for it, and an id that R128 does not print has none (R67). And where a field's container lies, or what
finding it raises (R112 to R116, R128). -/
def Obligations.FieldAddressFollowsTheLayout : Prop :=
  layout.length = 60 ∧
  (∀ fid name base offset container hi lo width,
    (fid, name, base, offset, container, hi, lo, width) ∈ layout →
      fieldRow fid = some ⟨fid, name, base, offset, container, hi, lo⟩ ∧ hi - lo + 1 = width ∧
      fieldLimit ⟨fid, name, base, offset, container, hi, lo⟩ = if name = .mqRlen then 128 else 2 ^ width) ∧
  (∀ fid, (∀ e ∈ layout, e.1 ≠ fid) → fieldRow fid = none) ∧
  ∀ (s : State) (r : FieldRow), s.len.toNat ≤ s.cap.toNat → r ∈ fieldTable →
    fieldAddress s r =
      match fieldFail s r with
      | some e => raise e
      | none => .ok (baseAt s r.base + r.offset)

/-- GETF returns the field cut out of its container; it raises Operand for an unassigned field id, what finding the
field raises, Bounds where the container is not below LEN, and Format for an MQ_RLEN of 128 or more (R140). -/
def Obligations.GetfReturnsTheField : Prop :=
  ∀ (fid : BitVec 8) (s : State), s.len.toNat ≤ s.cap.toNat →
    decode (0x20#8 ++ fid ++ 0#48) = .ok (.getf fid) ∧
    exec (.getf fid) s =
      match fieldRow fid with
      | none => .next { s with res := 0, st := 2 }
      | some r =>
        match fieldFail s r with
        | some e => .next { s with res := 0, st := causeCode e }
        | none =>
          if s.len.toNat < baseAt s r.base + r.offset + r.container then .next { s with res := 0, st := 3 }
          else if r.name = .mqRlen ∧ 128 ≤ numberAt s (baseAt s r.base + r.offset) r.container then
            .next { s with res := 0, st := 4 }
          else .next { s with
            res := BitVec.ofNat 64
              (numberAt s (baseAt s r.base + r.offset) r.container / 2 ^ r.lo % 2 ^ (r.hi - r.lo + 1))
            st := 0 }

/-- Where SETF raises, and that it then writes nothing but RES and ST: an unassigned field id, a value that does not
fit, what finding the field raises, and a container that is not below LEN, in this order (R141). -/
def Obligations.SetfRaisesBeforeItWrites : Prop :=
  ∀ (fid : BitVec 8) (value : BitVec 48) (s : State), s.len.toNat ≤ s.cap.toNat →
    (fieldRow fid = none → exec (.setf fid value) s = .next { s with res := 0, st := 2 }) ∧
    ∀ r, fieldRow fid = some r →
      (2 ^ (r.hi - r.lo + 1) ≤ value.toNat ∨ (r.name = .mqRlen ∧ 128 ≤ value.toNat) →
        exec (.setf fid value) s = .next { s with res := 0, st := 2 }) ∧
      (value.toNat < fieldLimit r → ∀ e, fieldFail s r = some e →
        exec (.setf fid value) s = .next { s with res := 0, st := causeCode e }) ∧
      (value.toNat < fieldLimit r → fieldFail s r = none →
        s.len.toNat < baseAt s r.base + r.offset + r.container →
        exec (.setf fid value) s = .next { s with res := 0, st := 3 })

/-- SETF of a value that fits a field whose container lies below LEN writes the field and leaves the other bits of the
container, every other byte of FB and every register but RES and ST (R141). -/
def Obligations.SetfWritesTheFieldAlone : Prop :=
  ∀ (fid : BitVec 8) (value : BitVec 48) (s : State) (r : FieldRow) (a : Nat), s.len.toNat ≤ s.cap.toNat →
    fieldRow fid = some r → value.toNat < fieldLimit r → fieldAddress s r = .ok a →
    a + r.container ≤ s.len.toNat →
    ∃ t, exec (.setf fid value) s = .next t ∧
      t.res = value.setWidth 64 ∧ t.st = 0 ∧
      numberAt t a r.container / 2 ^ r.lo % 2 ^ (r.hi - r.lo + 1) = value.toNat ∧
      numberAt t a r.container / 2 ^ (r.hi + 1) = numberAt s a r.container / 2 ^ (r.hi + 1) ∧
      numberAt t a r.container % 2 ^ r.lo = numberAt s a r.container % 2 ^ r.lo ∧
      (∀ x, x < a ∨ a + r.container ≤ x → byteAt t x = byteAt s x) ∧
      t.len = s.len ∧ t.localMac = s.localMac ∧ t.localIp = s.localIp ∧ t.sum = s.sum ∧ t.cap = s.cap ∧
      t.era = s.era ∧ t.port = s.port

/-- OFFS returns the address where a layer starts (R142, R129): Operand for an unassigned layer, what finding the layer
raises, Bounds where it starts beyond LEN. The layer ids are those of R68. -/
def Obligations.OffsReturnsTheStart : Prop :=
  (layerOfNum 0 = some .frame ∧ layerOfNum 1 = some .net ∧ layerOfNum 2 = some .ipopt ∧ layerOfNum 3 = some .ippay ∧
    layerOfNum 4 = some .tcpopt ∧ layerOfNum 5 = some .udppay ∧ layerOfNum 6 = some .tcppay ∧
    layerOfNum 7 = some .dhopt ∧ layerOfNum 8 = some .mqbody ∧
    ∀ lid : BitVec 8, 8 < lid.toNat → layerOfNum lid = none) ∧
  ∀ (lid : BitVec 8) (s : State), s.len.toNat ≤ s.cap.toNat →
    decode (0x22#8 ++ lid ++ 0#48) = .ok (.offs lid) ∧
    exec (.offs lid) s =
      match layerOfNum lid with
      | none => .next { s with res := 0, st := 2 }
      | some l =>
        match layerFail s l with
        | some e => .next { s with res := 0, st := causeCode e }
        | none =>
          if s.len.toNat < layerAt s l then .next { s with res := 0, st := 3 }
          else .next { s with res := BitVec.ofNat 64 (layerAt s l), st := 0 }

/-- PLEN returns the number of bytes the frame's own length fields give a layer (R143, R129): it raises as OFFS does,
Format for an MQTT remaining length of 128 or more and for a negative length, Bounds where the layer ends beyond
LEN. -/
def Obligations.PlenReturnsTheLength : Prop :=
  ∀ (lid : BitVec 8) (s : State), s.len.toNat ≤ s.cap.toNat →
    decode (0x23#8 ++ lid ++ 0#48) = .ok (.plen lid) ∧
    exec (.plen lid) s =
      match layerOfNum lid with
      | none => .next { s with res := 0, st := 2 }
      | some l =>
        match layerFail s l with
        | some e => .next { s with res := 0, st := causeCode e }
        | none =>
          if s.len.toNat < layerAt s l then .next { s with res := 0, st := 3 }
          else if l = .mqbody ∧ 128 ≤ layerSize s l then .next { s with res := 0, st := 4 }
          else if layerSize s l < 0 then .next { s with res := 0, st := 4 }
          else if (s.len.toNat : Int) < layerAt s l + layerSize s l then .next { s with res := 0, st := 3 }
          else .next { s with res := BitVec.ofNat 64 (layerSize s l).toNat, st := 0 }

/-- LDBE returns the big-endian number of 1, 2 or 4 bytes below LEN (R144). -/
def Obligations.LdbeLoadsBigEndian : Prop :=
  ∀ (n : BitVec 8) (off : BitVec 16) (s : State), s.len.toNat ≤ s.cap.toNat →
    decode (0x24#8 ++ n ++ (0#32 ++ off)) = .ok (.ldbe n off) ∧
    exec (.ldbe n off) s =
      if n ≠ 1 ∧ n ≠ 2 ∧ n ≠ 4 then .next { s with res := 0, st := 2 }
      else if s.len.toNat < off.toNat + n.toNat then .next { s with res := 0, st := 3 }
      else .next { s with res := BitVec.ofNat 64 (numberAt s off.toNat n.toNat), st := 0 }

/-- The number of consecutive bytes of FB is big-endian: the byte at the lower address is the more significant
(R41). -/
def Obligations.NumbersAreBigEndian : Prop :=
  ∀ (s : State) (a n k : Nat),
    numberAt s a 1 = byteAt s a ∧ numberAt s a (n + k) = numberAt s a n * 256 ^ k + numberAt s (a + n) k

/-- Where STBE raises, and that it then writes nothing but RES and ST: a byte count other than 1, 2, 4 or a value too
wide raise Operand, before a region not below LEN raises Bounds (R145, R204). -/
def Obligations.StbeRaisesBeforeItWrites : Prop :=
  ∀ (n : BitVec 8) (off : BitVec 16) (value : BitVec 32) (s : State), s.len.toNat ≤ s.cap.toNat →
    (n ≠ 1 ∧ n ≠ 2 ∧ n ≠ 4 ∨ 2 ^ (8 * n.toNat) ≤ value.toNat →
      exec (.stbe n off value) s = .next { s with res := 0, st := 2 }) ∧
    ((n = 1 ∨ n = 2 ∨ n = 4) → value.toNat < 2 ^ (8 * n.toNat) → s.len.toNat < off.toNat + n.toNat →
      exec (.stbe n off value) s = .next { s with res := 0, st := 3 })

/-- STBE of a value that fits 1, 2 or 4 bytes below LEN writes those bytes, the most significant first, and leaves
every other byte of FB and every register but RES and ST (R145). -/
def Obligations.StbeStoresBigEndian : Prop :=
  ∀ (n : BitVec 8) (off : BitVec 16) (value : BitVec 32) (s : State), s.len.toNat ≤ s.cap.toNat →
    (n = 1 ∨ n = 2 ∨ n = 4) → value.toNat < 2 ^ (8 * n.toNat) → off.toNat + n.toNat ≤ s.len.toNat →
    ∃ t, exec (.stbe n off value) s = .next t ∧
      t.res = value.setWidth 64 ∧ t.st = 0 ∧
      (∀ i, i < n.toNat → byteAt t (off.toNat + i) = value.toNat / 256 ^ (n.toNat - 1 - i) % 256) ∧
      (∀ x, x < off.toNat ∨ off.toNat + n.toNat ≤ x → byteAt t x = byteAt s x) ∧
      t.len = s.len ∧ t.localMac = s.localMac ∧ t.localIp = s.localIp ∧ t.sum = s.sum ∧ t.cap = s.cap ∧
      t.era = s.era ∧ t.port = s.port

/-- R43: what STBE stored, a later load of any width inside it reads back as the bytes that stand there. -/
def Obligations.MixedWidthsSeeOneMemory : Prop :=
  ∀ (n k : BitVec 8) (off : BitVec 16) (j : Nat) (value : BitVec 32) (s : State), s.len.toNat ≤ s.cap.toNat →
    (n = 1 ∨ n = 2 ∨ n = 4) → (k = 1 ∨ k = 2 ∨ k = 4) → j + k.toNat ≤ n.toNat →
    value.toNat < 2 ^ (8 * n.toNat) → off.toNat + n.toNat ≤ s.len.toNat →
    ∃ t u, exec (.stbe n off value) s = .next t ∧
      exec (.ldbe k (BitVec.ofNat 16 (off.toNat + j))) t = .next u ∧ u.st = 0 ∧
      u.res.toNat = value.toNat / 256 ^ (n.toNat - j - k.toNat) % 256 ^ k.toNat

/-- What DHOPT, ISOFFER and ISACK raise before they look at an option: what `Ihl()` raises, Bounds where the magic
cookie is not supplied, Format where it is not there (R131, R146, R168). -/
def Obligations.DhcpOperationsNeedTheCookie : Prop :=
  ∀ (i : Instr) (s : State) (e : Exc), s.len.toNat ≤ s.cap.toNat →
    (i = .isoffer ∨ i = .isack ∨ ∃ code, i = .dhopt code ∧ code ≠ 255) → cookieFail s = some e →
    exec i s = .next { s with res := 0, st := causeCode e }

/-- DHOPT finds the first option with its code behind any number of others, skipping each by its own length byte:
RES holds the length in bits 23:16 and the address of the value in bits 15:0 (R131, R146). Code 255 raises
Operand. -/
def Obligations.DhoptFindsTheFirstOption : Prop :=
  (∀ s : State, exec (.dhopt 255) s = .next { s with res := 0, st := 2 }) ∧
  ∀ (code : BitVec 8) (s : State) (os : List (Nat × Nat)) (q : Nat), s.len.toNat ≤ s.cap.toNat → code ≠ 255 →
    OptionsBefore s os q → (∀ o ∈ os, o.1 ≠ code.toNat ∧ o.1 ≠ 255) → q + 2 ≤ s.len.toNat →
    byteAt s q = code.toNat →
    exec (.dhopt code) s =
      if s.len.toNat < q + 2 + byteAt s (q + 1) then .next { s with res := 0, st := 3 }
      else .next { s with res := BitVec.ofNat 64 (byteAt s (q + 1) * 65536 + (q + 2)), st := 0 }

/-- An option scan that meets the terminator raises NotFound, and one that runs off the supplied bytes raises Bounds,
in DHOPT, ISOFFER and ISACK alike (R131). `code` is the option sought, 53 for the two predicates. -/
def Obligations.OptionScanEnds : Prop :=
  ∀ (i : Instr) (code : BitVec 8) (s : State) (os : List (Nat × Nat)) (q : Nat), s.len.toNat ≤ s.cap.toNat →
    (i = .dhopt code ∨ (code = 53 ∧ (i = .isoffer ∨ i = .isack))) → code ≠ 255 →
    OptionsBefore s os q → (∀ o ∈ os, o.1 ≠ code.toNat ∧ o.1 ≠ 255) →
    (q < s.len.toNat → byteAt s q = 255 → exec i s = .next { s with res := 0, st := 5 }) ∧
    (s.len.toNat ≤ q → exec i s = .next { s with res := 0, st := 3 }) ∧
    (q + 1 = s.len.toNat → byteAt s q ≠ 255 → exec i s = .next { s with res := 0, st := 3 })

/-! ### The classifier -/

/-- ISIP: the EtherType, then the header checksum over the whole header; SUM is 0 on every path (R161). -/
def Obligations.IsipChecksTypeAndHeader : Prop :=
  decode 0x3000000000000000 = .ok .isip ∧
  ∀ s : State, s.len.toNat ≤ s.cap.toNat →
    exec .isip s =
      if s.len.toNat < 14 then .next { s with sum := 0, res := 0, st := 3 }
      else if numberAt s 12 2 ≠ 0x0800 then .next { s with sum := 0, res := 0, st := 0 }
      else if s.len.toNat < 15 then .next { s with sum := 0, res := 0, st := 3 }
      else if ihlNibble s < 5 then .next { s with sum := 0, res := 0, st := 4 }
      else if s.len.toNat < 14 + 4 * ihlNibble s then .next { s with sum := 0, res := 0, st := 3 }
      else .next { s with
        sum := 0
        res := if finish (BitVec.ofNat 32 (wordSumAt s 14 (4 * ihlNibble s))) = 0 then 1 else 0
        st := 0 }

/-- ISUCAST and ISBCAST compare the IPv4 destination with LOCAL_IP and with 255.255.255.255 (R162, R163). -/
def Obligations.AddressPredicatesCompareDestination : Prop :=
  decode 0x3100000000000000 = .ok .isucast ∧ decode 0x3200000000000000 = .ok .isbcast ∧
  ∀ s : State, s.len.toNat ≤ s.cap.toNat →
    (exec .isucast s =
      if s.len.toNat < 34 then .next { s with res := 0, st := 3 }
      else .next { s with res := if numberAt s 30 4 = s.localIp.toNat then 1 else 0, st := 0 }) ∧
    (exec .isbcast s =
      if s.len.toNat < 34 then .next { s with res := 0, st := 3 }
      else .next { s with res := if numberAt s 30 4 = 0xFFFFFFFF then 1 else 0, st := 0 })

/-- ISARPREQ: the EtherType, then the opcode, then the target protocol address, stopping at the first that is false
(R164). -/
def Obligations.IsarpreqChecksInOrder : Prop :=
  decode 0x3300000000000000 = .ok .isarpreq ∧
  ∀ s : State, s.len.toNat ≤ s.cap.toNat →
    exec .isarpreq s =
      if s.len.toNat < 14 then .next { s with res := 0, st := 3 }
      else if numberAt s 12 2 ≠ 0x0806 then .next { s with res := 0, st := 0 }
      else if s.len.toNat < 22 then .next { s with res := 0, st := 3 }
      else if numberAt s 20 2 ≠ 1 then .next { s with res := 0, st := 0 }
      else if s.len.toNat < 42 then .next { s with res := 0, st := 3 }
      else .next { s with res := if numberAt s 38 4 = s.localIp.toNat then 1 else 0, st := 0 }

/-- ISPING: the protocol, then the ICMP type behind the IPv4 header (R165). -/
def Obligations.IspingChecksProtocolAndType : Prop :=
  decode 0x3400000000000000 = .ok .isping ∧
  ∀ s : State, s.len.toNat ≤ s.cap.toNat →
    exec .isping s =
      if s.len.toNat < 24 then .next { s with res := 0, st := 3 }
      else if byteAt s 23 ≠ 1 then .next { s with res := 0, st := 0 }
      else if ihlNibble s < 5 then .next { s with res := 0, st := 4 }
      else if s.len.toNat < payloadAt s + 1 then .next { s with res := 0, st := 3 }
      else .next { s with res := if byteAt s (payloadAt s) = 8 then 1 else 0, st := 0 }

/-- ISUDP: the protocol, then the UDP length, then the checksum over pseudo-header and datagram; SUM is 0 on every path
(R166). -/
def Obligations.IsudpValidatesTheDatagram : Prop :=
  decode 0x3500000000000000 = .ok .isudp ∧
  ∀ s : State, s.len.toNat ≤ s.cap.toNat →
    exec .isudp s =
      if s.len.toNat < 24 then .next { s with sum := 0, res := 0, st := 3 }
      else if byteAt s 23 ≠ 17 then .next { s with sum := 0, res := 0, st := 0 }
      else if ihlNibble s < 5 then .next { s with sum := 0, res := 0, st := 4 }
      else if s.len.toNat < payloadAt s + 6 then .next { s with sum := 0, res := 0, st := 3 }
      else if numberAt s (payloadAt s + 4) 2 < 8 then .next { s with sum := 0, res := 0, st := 4 }
      else if s.len.toNat < payloadAt s + numberAt s (payloadAt s + 4) 2 then
        .next { s with sum := 0, res := 0, st := 3 }
      else .next { s with
        sum := 0
        res := if finish (BitVec.ofNat 32 (pseudoSumAt s 17 (numberAt s (payloadAt s + 4) 2) +
          wordSumAt s (payloadAt s) (numberAt s (payloadAt s + 4) 2))) = 0 then 1 else 0
        st := 0 }

/-- ISTCP: the protocol, then the segment length from the total length, then the checksum over pseudo-header and
segment; SUM is 0 on every path (R167). -/
def Obligations.IstcpValidatesTheSegment : Prop :=
  decode 0x3600000000000000 = .ok .istcp ∧
  ∀ s : State, s.len.toNat ≤ s.cap.toNat →
    exec .istcp s =
      if s.len.toNat < 24 then .next { s with sum := 0, res := 0, st := 3 }
      else if byteAt s 23 ≠ 6 then .next { s with sum := 0, res := 0, st := 0 }
      else if ihlNibble s < 5 then .next { s with sum := 0, res := 0, st := 4 }
      else if numberAt s 16 2 < 4 * ihlNibble s + 20 then .next { s with sum := 0, res := 0, st := 4 }
      else if s.len.toNat < 14 + numberAt s 16 2 then .next { s with sum := 0, res := 0, st := 3 }
      else .next { s with
        sum := 0
        res := if finish (BitVec.ofNat 32 (pseudoSumAt s 6 (numberAt s 16 2 - 4 * ihlNibble s) +
          wordSumAt s (payloadAt s) (numberAt s 16 2 - 4 * ihlNibble s))) = 0 then 1 else 0
        st := 0 }

/-- ISOFFER and ISACK, where option 53 is found and supplied: Format where it has no value byte; else whether its first
byte is the type wanted and the client hardware address is LOCAL_MAC (R168 to R170). -/
def Obligations.DhcpTypePredicates : Prop :=
  ∀ (i : Instr) (want : Nat) (s : State) (os : List (Nat × Nat)) (q : Nat), s.len.toNat ≤ s.cap.toNat →
    (i = .isoffer ∧ want = 2 ∨ i = .isack ∧ want = 5) →
    OptionsBefore s os q → (∀ o ∈ os, o.1 ≠ 53 ∧ o.1 ≠ 255) → q + 2 ≤ s.len.toNat → byteAt s q = 53 →
    exec i s =
      if s.len.toNat < q + 2 + byteAt s (q + 1) then .next { s with res := 0, st := 3 }
      else if byteAt s (q + 1) = 0 then .next { s with res := 0, st := 4 }
      else .next { s with
        res := if byteAt s (q + 2) = want ∧ numberAt s (payloadAt s + 36) 6 = s.localMac.toNat then 1 else 0
        st := 0 }

/-- ISSYNACK, ISPSHACK and ISFINACK: the six flag bits are exactly the pattern; the data offset and the bits between do
not matter (R171 to R174). -/
def Obligations.FlagPredicatesMatchExactly : Prop :=
  decode 0x3900000000000000 = .ok .issynack ∧ decode 0x3A00000000000000 = .ok .ispshack ∧
  decode 0x3B00000000000000 = .ok .isfinack ∧
  ∀ (i : Instr) (pattern : Nat) (s : State), s.len.toNat ≤ s.cap.toNat →
    (i = .issynack ∧ pattern = 0x12 ∨ i = .ispshack ∧ pattern = 0x18 ∨ i = .isfinack ∧ pattern = 0x11) →
    exec i s =
      if s.len.toNat < 15 then .next { s with res := 0, st := 3 }
      else if ihlNibble s < 5 then .next { s with res := 0, st := 4 }
      else if s.len.toNat < payloadAt s + 14 then .next { s with res := 0, st := 3 }
      else .next { s with
        res := if byteAt s (payloadAt s + 13) % 64 = pattern then 1 else 0
        st := 0 }

/-- R176: which predicates exclude one another on one state. -/
def Obligations.PredicatesExcludeOneAnother : Prop :=
  ∀ s : State,
    (¬ (Holds .issynack s ∧ Holds .ispshack s) ∧ ¬ (Holds .issynack s ∧ Holds .isfinack s) ∧
      ¬ (Holds .ispshack s ∧ Holds .isfinack s)) ∧
    ¬ (Holds .isoffer s ∧ Holds .isack s) ∧
    (¬ (Holds .isping s ∧ Holds .isudp s) ∧ ¬ (Holds .isping s ∧ Holds .istcp s) ∧
      ¬ (Holds .isudp s ∧ Holds .istcp s)) ∧
    ¬ (Holds .isip s ∧ Holds .isarpreq s) ∧
    (Holds .isucast s ∧ Holds .isbcast s → s.localIp = 0xFFFFFFFF)

/-- R175: a predicate's answer depends on FB below LEN, LEN, LOCAL_MAC and LOCAL_IP only. -/
def Obligations.PredicatesDependOnTheViewAlone : Prop :=
  ∀ (i : Instr) (s s' t : State), i ∈ predicates → SameView s s' → exec i s = .next t →
    ∃ t', exec i s' = .next t' ∧ t'.res = t.res ∧ t'.st = t.st

/-- R175: asked again on the state it left, a predicate gives the same answer and changes nothing. -/
def Obligations.PredicatesAreIdempotent : Prop :=
  ∀ (i : Instr) (s t : State), i ∈ predicates → exec i s = .next t → exec i t = .next t

/-! ### Rules of the whole machine -/

/-- R203: what a raise changes. RES is 0, ST is the cause code, SUM is 0 if the word is a validating predicate, and
nothing else differs from the state before. -/
def Obligations.RaiseChangesOnlyResAndSt : Prop :=
  ∀ (w : CmdWord) (s t : State), execWord w s = .next t → t.st ≠ 0 →
    ∃ e, t = { s with
      res := 0
      st := causeCode e
      sum := if decode w = .ok .isip ∨ decode w = .ok .isudp ∨ decode w = .ok .istcp then 0 else s.sum }

/-- R202: an operation raises no exception that its row of the table does not list. -/
def Obligations.OperationsRaiseOnlyWhatIsListed : Prop :=
  ∀ (i : Instr) (s t : State), exec i s = .next t → t.st ≠ 0 → ∃ e ∈ raises i, t.st = causeCode e

/-- R20: which operations write which state. -/
def Obligations.StateIsWrittenOnlyAsListed : Prop :=
  ∀ (i : Instr) (s t : State), exec i s = .next t →
    t.cap = s.cap ∧ t.era = s.era ∧ t.port = s.port ∧
    (t.len ≠ s.len → ∃ value, i = .wrcsr 1 value) ∧
    (t.localMac ≠ s.localMac → ∃ value, i = .wrcsr 2 value) ∧
    (t.localIp ≠ s.localIp → ∃ value, i = .wrcsr 3 value) ∧
    (t.sum ≠ s.sum → (∃ off len, i = .acc off len) ∨ (∃ len, i = .accph len) ∨ i = .fin ∨ validating i = true) ∧
    (t.fb ≠ s.fb → (∃ fid value, i = .setf fid value) ∨ ∃ n off value, i = .stbe n off value)

/-- R23: no operation writes a byte of FB at or above LEN. -/
def Obligations.BytesFromLenUpAreKept : Prop :=
  ∀ (i : Instr) (s t : State) (a : Nat), exec i s = .next t → s.len.toNat ≤ a → byteAt t a = byteAt s a

/-- R23: no operation reads a byte of FB at or above LEN: two states that differ in such bytes alone go on to states
that differ in such bytes alone. -/
def Obligations.BytesFromLenUpAreNeverRead : Prop :=
  ∀ (i : Instr) (s s' t : State), SameBelowLen s s' → exec i s = .next t →
    ∃ t', exec i s' = .next t' ∧ t'.len = t.len ∧ t'.localMac = t.localMac ∧ t'.localIp = t.localIp ∧
      t'.sum = t.sum ∧ t'.res = t.res ∧ t'.st = t.st ∧ t'.cap = t.cap ∧
      ∀ a, a < s.len.toNat → byteAt t' a = byteAt t a

/-- R29: RES and ST of the operation before matter to no operation but RDCSR RES and RDCSR ST. -/
def Obligations.OldResultNeverMatters : Prop :=
  ∀ (i : Instr) (s : State) (r : BitVec 64) (c : BitVec 4), i ≠ .rdcsr 5 → i ≠ .rdcsr 6 →
    exec i { s with res := r, st := c } = exec i s

/-- R231: with LEN = 0 every FB access raises Bounds: the predicates, ACC of a region that does not start and end at 0,
ACCPH, GETF of an assigned field, SETF of a value that fits, OFFS and PLEN of every layer but L_FRAME, a load, a store
of a value that fits, and DHOPT of every code but the terminator's. And FIN from SUM = 0 returns 0xFFFF. -/
def Obligations.EmptyFrameRaisesBounds : Prop :=
  ∀ s : State, s.len = 0 →
    (∀ i ∈ predicates, exec i s =
      .next { s with sum := if validating i then 0 else s.sum, res := 0, st := 3 }) ∧
    (∀ off len : BitVec 16, 0 < off.toNat + len.toNat → exec (.acc off len) s = .next { s with res := 0, st := 3 }) ∧
    (∀ len, exec (.accph len) s = .next { s with res := 0, st := 3 }) ∧
    (∀ fid, (fieldRow fid).isSome = true → exec (.getf fid) s = .next { s with res := 0, st := 3 }) ∧
    (∀ fid value, setfFits fid value = true → exec (.setf fid value) s = .next { s with res := 0, st := 3 }) ∧
    (∀ lid : BitVec 8, 1 ≤ lid.toNat → lid.toNat ≤ 8 →
      exec (.offs lid) s = .next { s with res := 0, st := 3 } ∧
      exec (.plen lid) s = .next { s with res := 0, st := 3 }) ∧
    (∀ n off, (byteCount n).isSome = true → exec (.ldbe n off) s = .next { s with res := 0, st := 3 }) ∧
    (∀ n off value, stbeFits n value = true → exec (.stbe n off value) s = .next { s with res := 0, st := 3 }) ∧
    (∀ code : BitVec 8, code ≠ 255 → exec (.dhopt code) s = .next { s with res := 0, st := 3 }) ∧
    (s.sum = 0 → exec .fin s = .next { s with sum := 0, res := 0xFFFF, st := 0 })
end

