-- ==== Sys2Proof/Laws/Encoding.lean ====
section
/-! SUPPORT. The parts of a command word that is put together from its parts (R60). -/

namespace Sys2Proof

theorem wordOf_getLsbD (opc s : BitVec 8) (v : BitVec 48) (i : Nat) :
    (wordOf opc s v).getLsbD i =
      if i < 48 then v.getLsbD i else if i - 48 < 8 then s.getLsbD (i - 48) else opc.getLsbD (i - 48 - 8) := by
  show (opc ++ s ++ v : BitVec (8 + 8 + 48)).getLsbD i = _
  rw [BitVec.getLsbD_append, BitVec.getLsbD_append]

@[simp] theorem opField_wordOf (opc s : BitVec 8) (v : BitVec 48) : opField (wordOf opc s v) = opc := by
  apply BitVec.eq_of_getLsbD_eq
  intro i hi
  have h : 56 + i - 48 - 8 = i := by omega
  rw [opField, BitVec.getLsbD_extractLsb', wordOf_getLsbD, if_neg (by omega), if_neg (by omega), h]
  simp [hi]

@[simp] theorem selField_wordOf (opc s : BitVec 8) (v : BitVec 48) : selField (wordOf opc s v) = s := by
  apply BitVec.eq_of_getLsbD_eq
  intro i hi
  have h : 48 + i - 48 = i := by omega
  rw [selField, BitVec.getLsbD_extractLsb', wordOf_getLsbD, if_neg (by omega), h, if_pos hi]
  simp [hi]

@[simp] theorem argField_wordOf (opc s : BitVec 8) (v : BitVec 48) : argField (wordOf opc s v) = v := by
  apply BitVec.eq_of_getLsbD_eq
  intro i hi
  rw [argField, BitVec.getLsbD_extractLsb', wordOf_getLsbD, if_pos (by omega)]
  simp [hi]

theorem a2Field_wordOf (opc s : BitVec 8) (v : BitVec 48) :
    a2Field (wordOf opc s v) = v.extractLsb' 32 16 := by
  apply BitVec.eq_of_getLsbD_eq
  intro i hi
  rw [a2Field, BitVec.getLsbD_extractLsb', BitVec.getLsbD_extractLsb', wordOf_getLsbD, if_pos (by omega)]

theorem a1Field_wordOf (opc s : BitVec 8) (v : BitVec 48) :
    a1Field (wordOf opc s v) = v.extractLsb' 16 16 := by
  apply BitVec.eq_of_getLsbD_eq
  intro i hi
  rw [a1Field, BitVec.getLsbD_extractLsb', BitVec.getLsbD_extractLsb', wordOf_getLsbD, if_pos (by omega)]

theorem a0Field_wordOf (opc s : BitVec 8) (v : BitVec 48) :
    a0Field (wordOf opc s v) = v.extractLsb' 0 16 := by
  apply BitVec.eq_of_getLsbD_eq
  intro i hi
  rw [a0Field, BitVec.getLsbD_extractLsb', BitVec.getLsbD_extractLsb', wordOf_getLsbD, if_pos (by omega)]

theorem v32Field_wordOf (opc s : BitVec 8) (v : BitVec 48) :
    v32Field (wordOf opc s v) = v.extractLsb' 0 32 := by
  apply BitVec.eq_of_getLsbD_eq
  intro i hi
  rw [v32Field, BitVec.getLsbD_extractLsb', BitVec.getLsbD_extractLsb', wordOf_getLsbD, if_pos (by omega)]

/-- A word is put together from its three parts again. -/
theorem wordOf_fields (w : CmdWord) : wordOf (opField w) (selField w) (argField w) = w := by
  apply BitVec.eq_of_getLsbD_eq
  intro i hi
  rw [wordOf_getLsbD]
  simp only [opField, selField, argField, BitVec.getLsbD_extractLsb']
  by_cases h1 : i < 48
  · simp [h1]
  · by_cases h2 : i - 48 < 8
    · simp [h1, h2, show 48 + (i - 48) = i by omega]
    · simp [h1, h2, show 56 + (i - 48 - 8) = i by omega, show i - 48 - 8 < 8 by omega]

/-- Masking a word masks its parts. -/
theorem wordOf_and (opc s mo ms : BitVec 8) (v mv : BitVec 48) :
    wordOf opc s v &&& wordOf mo ms mv = wordOf (opc &&& mo) (s &&& ms) (v &&& mv) := by
  apply BitVec.eq_of_getLsbD_eq
  intro i hi
  rw [BitVec.getLsbD_and, wordOf_getLsbD, wordOf_getLsbD, wordOf_getLsbD]
  split
  · simp
  · split <;> simp

/-- An instruction whose operand fields leave the reserved parts of its row 0 fits the row. -/
theorem wordOf_and_mask {opc s ms : BitVec 8} {v mv : BitVec 48} (hs : s &&& ms = 0) (hv : v &&& mv = 0) :
    wordOf opc s v &&& wordOf 0xFF ms mv = wordOf opc 0 0 := by
  have h : opc &&& 0xFF = opc := by
    apply BitVec.eq_of_toNat_eq
    rw [BitVec.toNat_and]
    exact Nat.and_two_pow_sub_one_of_lt_two_pow opc.isLt
  rw [wordOf_and, hs, hv, h]

end Sys2Proof
end

