-- ==== Sys2Proof/Laws/State.lean ====
section
/-! SUPPORT. What each update of the state leaves in each field. -/

namespace Sys2Proof.Machine

/-! ### `s.returned v` -/

@[simp] theorem returned_fb (s : State) (v : Nat) : (s.returned v).fb = s.fb := rfl
@[simp] theorem returned_era (s : State) (v : Nat) : (s.returned v).era = s.era := rfl
@[simp] theorem returned_len (s : State) (v : Nat) : (s.returned v).len = s.len := rfl
@[simp] theorem returned_localMac (s : State) (v : Nat) : (s.returned v).localMac = s.localMac := rfl
@[simp] theorem returned_localIp (s : State) (v : Nat) : (s.returned v).localIp = s.localIp := rfl
@[simp] theorem returned_sum (s : State) (v : Nat) : (s.returned v).sum = s.sum := rfl
@[simp] theorem returned_res (s : State) (v : Nat) : (s.returned v).res = BitVec.ofNat 64 v := rfl
@[simp] theorem returned_st (s : State) (v : Nat) : (s.returned v).st = okCode := rfl
@[simp] theorem returned_cap (s : State) (v : Nat) : (s.returned v).cap = s.cap := rfl
@[simp] theorem returned_port (s : State) (v : Nat) : (s.returned v).port = s.port := rfl

/-! ### `s.raised e` -/

@[simp] theorem raised_fb (s : State) (e : Exc) : (s.raised e).fb = s.fb := rfl
@[simp] theorem raised_era (s : State) (e : Exc) : (s.raised e).era = s.era := rfl
@[simp] theorem raised_len (s : State) (e : Exc) : (s.raised e).len = s.len := rfl
@[simp] theorem raised_localMac (s : State) (e : Exc) : (s.raised e).localMac = s.localMac := rfl
@[simp] theorem raised_localIp (s : State) (e : Exc) : (s.raised e).localIp = s.localIp := rfl
@[simp] theorem raised_sum (s : State) (e : Exc) : (s.raised e).sum = s.sum := rfl
@[simp] theorem raised_res (s : State) (e : Exc) : (s.raised e).res = 0 := rfl
@[simp] theorem raised_st (s : State) (e : Exc) : (s.raised e).st = causeCode e := rfl
@[simp] theorem raised_cap (s : State) (e : Exc) : (s.raised e).cap = s.cap := rfl
@[simp] theorem raised_port (s : State) (e : Exc) : (s.raised e).port = s.port := rfl

/-! ### `clearSum s` -/

@[simp] theorem clearSum_fb (s : State) : (clearSum s).fb = s.fb := rfl
@[simp] theorem clearSum_era (s : State) : (clearSum s).era = s.era := rfl
@[simp] theorem clearSum_len (s : State) : (clearSum s).len = s.len := rfl
@[simp] theorem clearSum_localMac (s : State) : (clearSum s).localMac = s.localMac := rfl
@[simp] theorem clearSum_localIp (s : State) : (clearSum s).localIp = s.localIp := rfl
@[simp] theorem clearSum_sum (s : State) : (clearSum s).sum = 0 := rfl
@[simp] theorem clearSum_res (s : State) : (clearSum s).res = s.res := rfl
@[simp] theorem clearSum_st (s : State) : (clearSum s).st = s.st := rfl
@[simp] theorem clearSum_cap (s : State) : (clearSum s).cap = s.cap := rfl
@[simp] theorem clearSum_port (s : State) : (clearSum s).port = s.port := rfl

/-! ### `s.afterReset` -/

@[simp] theorem afterReset_fb (s : State) : (s.afterReset).fb = [] := rfl
@[simp] theorem afterReset_era (s : State) : (s.afterReset).era = s.era + 1 := rfl
@[simp] theorem afterReset_len (s : State) : (s.afterReset).len = 0 := rfl
@[simp] theorem afterReset_localMac (s : State) : (s.afterReset).localMac = 0 := rfl
@[simp] theorem afterReset_localIp (s : State) : (s.afterReset).localIp = 0 := rfl
@[simp] theorem afterReset_sum (s : State) : (s.afterReset).sum = 0 := rfl
@[simp] theorem afterReset_res (s : State) : (s.afterReset).res = 0 := rfl
@[simp] theorem afterReset_st (s : State) : (s.afterReset).st = 0 := rfl
@[simp] theorem afterReset_cap (s : State) : (s.afterReset).cap = s.cap := rfl
@[simp] theorem afterReset_port (s : State) : (s.afterReset).port = s.port := rfl

/-! ### `addToSum s t` -/

@[simp] theorem addToSum_fb (s : State) (t : Nat) : (addToSum s t).1.fb = s.fb := rfl
@[simp] theorem addToSum_era (s : State) (t : Nat) : (addToSum s t).1.era = s.era := rfl
@[simp] theorem addToSum_len (s : State) (t : Nat) : (addToSum s t).1.len = s.len := rfl
@[simp] theorem addToSum_localMac (s : State) (t : Nat) : (addToSum s t).1.localMac = s.localMac := rfl
@[simp] theorem addToSum_localIp (s : State) (t : Nat) : (addToSum s t).1.localIp = s.localIp := rfl
@[simp] theorem addToSum_sum (s : State) (t : Nat) : (addToSum s t).1.sum = s.sum + BitVec.ofNat 32 t := rfl
@[simp] theorem addToSum_res (s : State) (t : Nat) : (addToSum s t).1.res = s.res := rfl
@[simp] theorem addToSum_st (s : State) (t : Nat) : (addToSum s t).1.st = s.st := rfl
@[simp] theorem addToSum_cap (s : State) (t : Nat) : (addToSum s t).1.cap = s.cap := rfl
@[simp] theorem addToSum_port (s : State) (t : Nat) : (addToSum s t).1.port = s.port := rfl

@[simp] theorem addToSum_value (s : State) (t : Nat) :
    (addToSum s t).2 = (s.sum + BitVec.ofNat 32 t).toNat := rfl

/-! ### The state after reset -/

@[simp] theorem reset_fb : State.reset.fb = [] := rfl
@[simp] theorem reset_era : State.reset.era = 0 := rfl
@[simp] theorem reset_len : State.reset.len = 0 := rfl
@[simp] theorem reset_localMac : State.reset.localMac = 0 := rfl
@[simp] theorem reset_localIp : State.reset.localIp = 0 := rfl
@[simp] theorem reset_sum : State.reset.sum = 0 := rfl
@[simp] theorem reset_res : State.reset.res = 0 := rfl
@[simp] theorem reset_st : State.reset.st = 0 := rfl
@[simp] theorem reset_cap : State.reset.cap = BitVec.ofNat 16 Config.bufCap := rfl
@[simp] theorem reset_port : State.reset.port = [] := rfl

end Sys2Proof.Machine
end

