-- ==== Sys2Proof/Laws/Memory.lean ====
section
/-! SUPPORT. The frame buffer: a read after a write, and the canonical form that every memory operation keeps. -/

namespace Sys2Proof.Machine

/-! ### Reading what was written -/

theorem entry_remove (m : Memory) (a x : Nat) :
    Memory.entry (Memory.remove m a) x = if x = a then none else Memory.entry m x := by
  induction m with
  | nil => simp [Memory.remove, Memory.entry]
  | cons c m ih =>
    obtain ⟨k, b⟩ := c
    simp only [Memory.remove, List.filter_cons] at ih ⊢
    by_cases hk : k = a
    · subst hk
      simp only [bne_self_eq_false, Bool.false_eq_true, if_false, ih, Memory.entry]
      split <;> simp_all
    · simp only [bne_iff_ne, ne_eq, hk, not_false_eq_true, if_true, Memory.entry, ih]
      split
      · rename_i hx
        simp [hx, hk]
      · rfl

theorem entry_put (m : Memory) (a x : Nat) (b : Byte) :
    Memory.entry (Memory.put m a b) x = if x = a then some b else Memory.entry m x := by
  induction m with
  | nil => simp [Memory.put, Memory.entry]
  | cons c m ih =>
    obtain ⟨k, d⟩ := c
    simp only [Memory.put]
    split
    · simp [Memory.entry]
    · split
      · rename_i hk
        subst hk
        simp only [Memory.entry]
        split <;> simp_all
      · rename_i hk
        simp only [Memory.entry, ih]
        split
        · rename_i hx
          subst hx
          simp [Ne.symm hk]
        · rfl

/-- A write is read back at its own address and nowhere else. -/
theorem read_write (era : Nat) (m : Memory) (a x : Nat) (b : Byte) :
    Memory.read era (Memory.write era m a b) x = if x = a then b else Memory.read era m x := by
  unfold Memory.read Memory.write
  by_cases hb : b = Memory.unlisted era a
  · rw [if_pos hb, entry_remove]
    by_cases hx : x = a <;> simp [hx, hb]
  · rw [if_neg hb, entry_put]
    by_cases hx : x = a <;> simp [hx]

@[simp] theorem read_write_same (era : Nat) (m : Memory) (a : Nat) (b : Byte) :
    Memory.read era (Memory.write era m a b) a = b := by simp [read_write]

theorem read_write_other (era : Nat) (m : Memory) {a x : Nat} (b : Byte) (h : x ≠ a) :
    Memory.read era (Memory.write era m a b) x = Memory.read era m x := by simp [read_write, h]

/-- After a run of bytes is stored from `a`, each is read back at its place and nothing else has changed. -/
theorem read_writeBytes (era : Nat) (m : Memory) (a x : Nat) (bs : List Byte) :
    Memory.read era (Memory.writeBytes era m a bs) x =
      if h : a ≤ x ∧ x < a + bs.length then bs[x - a]'(by omega) else Memory.read era m x := by
  induction bs generalizing m a with
  | nil =>
    simp only [Memory.writeBytes, List.length_nil, Nat.add_zero]
    rw [dif_neg (by omega)]
  | cons b bs ih =>
    simp only [Memory.writeBytes, ih, List.length_cons]
    by_cases hx : x = a
    · subst hx
      rw [dif_neg (by omega), dif_pos (by omega)]
      simp
    · by_cases hin : a + 1 ≤ x ∧ x < a + 1 + bs.length
      · rw [dif_pos hin, dif_pos (by omega)]
        obtain ⟨k, hk⟩ : ∃ k, x - a = k + 1 := ⟨x - a - 1, by omega⟩
        have hk' : x - (a + 1) = k := by omega
        simp [hk, hk']
      · rw [dif_neg hin, dif_neg (by omega), read_write_other _ _ _ hx]

theorem read_writeBytes_outside (era : Nat) (m : Memory) {a x : Nat} {bs : List Byte}
    (h : x < a ∨ a + bs.length ≤ x) :
    Memory.read era (Memory.writeBytes era m a bs) x = Memory.read era m x := by
  rw [read_writeBytes, dif_neg (by omega)]

@[simp] theorem readBytes_length (era : Nat) (m : Memory) (a n : Nat) :
    (Memory.readBytes era m a n).length = n := by
  induction n generalizing a with
  | zero => rfl
  | succ n ih => simp [Memory.readBytes, ih]

theorem readBytes_getElem (era : Nat) (m : Memory) (a n i : Nat) (h : i < n) :
    (Memory.readBytes era m a n)[i]'(by simpa using h) = Memory.read era m (a + i) := by
  induction n generalizing a i with
  | zero => omega
  | succ n ih =>
    cases i with
    | zero => simp [Memory.readBytes]
    | succ i =>
      have := ih (a + 1) i (by omega)
      simp only [Memory.readBytes, List.getElem_cons_succ, this]
      congr 1
      omega

/-- Reading a region sees only the bytes of that region. -/
theorem readBytes_congr {era era' : Nat} {m m' : Memory} {a n : Nat}
    (h : ∀ x, a ≤ x → x < a + n → Memory.read era m x = Memory.read era' m' x) :
    Memory.readBytes era m a n = Memory.readBytes era' m' a n := by
  induction n generalizing a with
  | zero => rfl
  | succ n ih =>
    simp only [Memory.readBytes]
    rw [h a (by omega) (by omega), ih (fun x h1 h2 => h x (by omega) (by omega))]

/-- Reading back a stored run gives the run. -/
theorem readBytes_writeBytes (era : Nat) (m : Memory) (a : Nat) (bs : List Byte) :
    Memory.readBytes era (Memory.writeBytes era m a bs) a bs.length = bs := by
  apply List.ext_getElem (by simp)
  intro i h1 h2
  rw [readBytes_getElem _ _ _ _ _ h2, read_writeBytes, dif_pos (by omega)]
  simp

/-! ### Bytes and numbers -/

@[simp] theorem beBytes_length (n v : Nat) : (beBytes n v).length = n := by
  induction n with
  | zero => rfl
  | succ n ih => simp [beBytes, ih]

theorem beValue_foldl (bs : List Byte) (v : Nat) :
    bs.foldl (fun v b => v * 256 + b.toNat) v = v * 256 ^ bs.length + beValue bs := by
  induction bs generalizing v with
  | nil => simp [beValue]
  | cons b bs ih =>
    simp only [beValue, List.foldl_cons, List.length_cons] at ih ⊢
    rw [ih, ih (0 * 256 + b.toNat), Nat.pow_succ]
    ring

@[simp] theorem beValue_nil : beValue [] = 0 := rfl

theorem beValue_cons (b : Byte) (bs : List Byte) :
    beValue (b :: bs) = b.toNat * 256 ^ bs.length + beValue bs := by
  have := beValue_foldl bs (0 * 256 + b.toNat)
  simpa [beValue] using this

theorem beValue_lt (bs : List Byte) : beValue bs < 256 ^ bs.length := by
  induction bs with
  | nil => simp
  | cons b bs ih =>
    rw [beValue_cons, List.length_cons, Nat.pow_succ]
    have := b.isLt
    nlinarith

/-- The bytes of a number that fits in them stand for that number. -/
theorem beValue_beBytes (n v : Nat) : beValue (beBytes n v) = v % 256 ^ n := by
  induction n with
  | zero => simp [beBytes, Nat.mod_one]
  | succ n ih =>
    rw [beBytes, beValue_cons, beBytes_length, ih, BitVec.toNat_ofNat,
      show v % 256 ^ (n + 1) = v % 256 ^ n + 256 ^ n * (v / 256 ^ n % 256) from Nat.mod_mul,
      Nat.add_comm, Nat.mul_comm]

theorem beBytes_beValue (bs : List Byte) : beBytes bs.length (beValue bs) = bs := by
  induction bs with
  | nil => rfl
  | cons b bs ih =>
    have hlt := beValue_lt bs
    have hpos : 0 < 256 ^ bs.length := by positivity
    have key : ∀ n v w, beBytes n (v * 256 ^ n + w) = beBytes n w := by
      intro n
      induction n with
      | zero => intros; rfl
      | succ n ihn =>
        intro v w
        simp only [beBytes]
        have h1 : v * 256 ^ (n + 1) + w = v * 256 * 256 ^ n + w := by ring
        rw [h1, ihn]
        congr 1
        have hp : 0 < 256 ^ n := by positivity
        rw [Nat.mul_comm (v * 256) (256 ^ n), Nat.mul_add_div hp]
        apply BitVec.eq_of_toNat_eq
        simp [BitVec.toNat_ofNat, Nat.add_mod]
    rw [List.length_cons, beBytes, beValue_cons, key, ih]
    congr 1
    rw [Nat.mul_comm, Nat.mul_add_div hpos, Nat.div_eq_of_lt hlt]
    simp

/-! ### The canonical form -/

theorem mem_put {m : Memory} {a : Nat} {b : Byte} {c : Host.Cell} (h : c ∈ Memory.put m a b) :
    c = (a, b) ∨ c ∈ m := by
  induction m with
  | nil => simpa [Memory.put] using h
  | cons d m ih =>
    obtain ⟨k, e⟩ := d
    simp only [Memory.put] at h
    split at h
    · simpa using h
    · split at h
      · rcases List.mem_cons.mp h with h | h
        · exact .inl h
        · exact .inr (List.mem_cons_of_mem _ h)
      · rcases List.mem_cons.mp h with h | h
        · exact .inr (by simp [h])
        · rcases ih h with h | h
          · exact .inl h
          · exact .inr (List.mem_cons_of_mem _ h)

theorem put_rising {m : Memory} (a : Nat) (b : Byte) (h : m.Pairwise (fun x y => x.1 < y.1)) :
    (Memory.put m a b).Pairwise (fun x y => x.1 < y.1) := by
  induction m with
  | nil => simp [Memory.put]
  | cons d m ih =>
    obtain ⟨k, e⟩ := d
    rw [List.pairwise_cons] at h
    simp only [Memory.put]
    split
    · rename_i hak
      refine List.pairwise_cons.mpr ⟨?_, List.pairwise_cons.mpr h⟩
      intro c hc
      rcases List.mem_cons.mp hc with hc | hc
      · simpa [hc] using hak
      · have := h.1 c hc
        simp only at this ⊢
        omega
    · split
      · rename_i hak
        subst hak
        exact List.pairwise_cons.mpr h
      · refine List.pairwise_cons.mpr ⟨?_, ih h.2⟩
        intro c hc
        rcases mem_put hc with hc | hc
        · simp only [hc]
          omega
        · exact h.1 c hc

/-- A write keeps the canonical form. -/
theorem write_wf {era : Nat} {m : Memory} (a : Nat) (b : Byte) (h : Memory.wf era m) :
    Memory.wf era (Memory.write era m a b) := by
  unfold Memory.write
  split
  · exact ⟨h.1.filter _, fun c hc => h.2 c (List.mem_filter.mp hc).1⟩
  · rename_i hb
    refine ⟨put_rising a b h.1, fun c hc => ?_⟩
    rcases mem_put hc with rfl | hc
    · exact hb
    · exact h.2 c hc

/-- A run of writes keeps the canonical form. -/
theorem writeBytes_wf {era : Nat} {m : Memory} (a : Nat) (bs : List Byte) (h : Memory.wf era m) :
    Memory.wf era (Memory.writeBytes era m a bs) := by
  induction bs generalizing m a with
  | nil => exact h
  | cons b bs ih => exact ih _ (write_wf a b h)

theorem mem_write {era : Nat} {m : Memory} {a : Nat} {b : Byte} {c : Host.Cell}
    (h : c ∈ Memory.write era m a b) : c.1 = a ∨ c ∈ m := by
  unfold Memory.write at h
  split at h
  · exact .inr (List.mem_filter.mp h).1
  · rcases mem_put h with rfl | h
    · exact .inl rfl
    · exact .inr h

/-- A run of writes lists no address outside the run that was not listed before. -/
theorem mem_writeBytes {era : Nat} {m : Memory} {a : Nat} {bs : List Byte} {c : Host.Cell}
    (h : c ∈ Memory.writeBytes era m a bs) : c.1 < a + bs.length ∨ c ∈ m := by
  induction bs generalizing m a with
  | nil => exact .inr h
  | cons b bs ih =>
    rcases ih h with h | h
    · exact .inl (by simp only [List.length_cons]; omega)
    · rcases mem_write h with h | h
      · exact .inl (by simp only [List.length_cons]; omega)
      · exact .inr h

/-- The memory after reset has the canonical form. -/
theorem reset_wf : Memory.wf State.reset.era State.reset.fb := by
  simp [Memory.wf]

end Sys2Proof.Machine
end

