-- ==== Sys2Proof/Laws/Ops.lean ====
section
/-! SUPPORT. What each shared operation can do: one lemma each, cited where an instruction uses it. -/

namespace Sys2Proof.Machine

open Sys2Proof.Safety

/-! ### Pseudocode: raising, and one line after another -/

theorem eval_bind_ok {α β : Type} (a : α) (f : α → Eval β) : ((.ok a : Eval α) >>= f) = f a := rfl

theorem eval_bind_error {α β : Type} (x : Stop) (f : α → Eval β) :
    ((.error x : Eval α) >>= f) = .error x := rfl

@[simp] theorem raise_bind {α β : Type} (e : Exc) (f : α → Eval β) : ((raise e : Eval α) >>= f) = raise e := rfl

@[simp] theorem ok_bind {α β : Type} (a : α) (f : α → Eval β) : ((Except.ok a : Eval α) >>= f) = f a := rfl

/-- Two lines answer a value only if both do. -/
theorem bind_ok_iff {α β : Type} {x : Eval α} {f : α → Eval β} {b : β} :
    (x >>= f) = .ok b ↔ ∃ a, x = .ok a ∧ f a = .ok b := by
  cases x with
  | ok a => simp
  | error e => simp [eval_bind_error]

/-- Two lines stop where the first stops, or the second after it. -/
theorem bind_error_iff {α β : Type} {x : Eval α} {f : α → Eval β} {e : Stop} :
    (x >>= f) = .error e ↔ x = .error e ∨ ∃ a, x = .ok a ∧ f a = .error e := by
  cases x with
  | ok a => simp
  | error e => simp [eval_bind_error]

theorem raiseIf_eq (c : Prop) [Decidable c] (e : Exc) : raiseIf c e = if c then raise e else .ok () := rfl

@[simp] theorem raiseIf_bind {α : Type} (c : Prop) [Decidable c] (e : Exc) (f : Unit → Eval α) :
    (raiseIf c e >>= f) = if c then raise e else f () := by
  unfold raiseIf
  split <;> rfl

@[simp] theorem orRaise_some {α : Type} (x : α) (e : Exc) : orRaise (some x) e = .ok x := rfl

@[simp] theorem orRaise_none {α : Type} (e : Exc) : orRaise (none : Option α) e = raise e := rfl

@[simp] theorem map_raise {α β : Type} (g : α → β) (e : Exc) :
    Except.map g (raise e : Eval α) = (raise e : Eval β) := rfl

@[simp] theorem map_ok {α β : Type} (g : α → β) (a : α) :
    Except.map g (.ok a : Eval α) = (.ok (g a) : Eval β) := rfl

/-! ### The two ways an operation ends -/

@[simp] theorem conclude_ok (s t : State) (v : Nat) : conclude s (.ok (t, v)) = .next (t.returned v) := rfl

@[simp] theorem conclude_raise (s : State) (e : Exc) : conclude s (raise e) = .next (s.raised e) := rfl

@[simp] theorem answer_ok (s : State) (v : Nat) : answer s (.ok v) = .next (s.returned v) := rfl

@[simp] theorem answer_raise (s : State) (e : Exc) : answer s (raise e) = .next (s.raised e) := rfl

/-- An operation that writes state goes on in one of two ways: it has returned, or it has raised and left the
state it began with. -/
theorem conclude_next {s u : State} {r : Eval (State × Nat)} (h : conclude s r = .next u) :
    (∃ t v, r = .ok (t, v) ∧ u = t.returned v) ∨ ∃ e, r = .error (.raise e) ∧ u = s.raised e := by
  unfold conclude at h
  split at h
  · exact .inl ⟨_, _, rfl, by simpa using h.symm⟩
  · exact .inr ⟨_, rfl, by simpa using h.symm⟩
  · cases h

/-- An operation that writes RES and ST alone goes on in one of two ways. -/
theorem answer_next {s u : State} {r : Eval Nat} (h : answer s r = .next u) :
    (∃ v, r = .ok v ∧ u = s.returned v) ∨ ∃ e, r = .error (.raise e) ∧ u = s.raised e := by
  unfold answer at h
  split at h
  · exact .inl ⟨_, rfl, by simpa using h.symm⟩
  · exact .inr ⟨_, rfl, by simpa using h.symm⟩
  · cases h

/-! ### Bounded access -/

/-- Where LEN is at most CAP, the check of an access is the bound LEN and nothing else (R11). -/
theorem checkRange_eq {s : State} (h : s.len.toNat ≤ s.cap.toNat) (a n : Nat) :
    checkRange s a n = if s.len.toNat < a + n then raise .bounds else .ok () := by
  unfold checkRange
  split
  · rfl
  · rw [if_neg (by omega)]

/-- In any state, an access that is let through lies below LEN. -/
theorem checkRange_inv {s : State} {a n : Nat} {u : Unit} (h : checkRange s a n = .ok u) :
    a + n ≤ s.len.toNat ∧ (n = 0 ∨ a + n ≤ s.cap.toNat) := by
  unfold checkRange raise at h
  split at h
  · cases h
  · split at h
    · cases h
    · omega

theorem readRange_eq {s : State} (h : s.len.toNat ≤ s.cap.toNat) (a n : Nat) :
    readRange s a n =
      if s.len.toNat < a + n then raise .bounds else .ok (Memory.readBytes s.era s.fb a n) := by
  unfold readRange
  rw [checkRange_eq h]
  split <;> rfl

theorem readRange_inv {s : State} {a n : Nat} {bs : List Byte} (h : readRange s a n = .ok bs) :
    a + n ≤ s.len.toNat ∧ bs = Memory.readBytes s.era s.fb a n := by
  obtain ⟨u, h1, h2⟩ := bind_ok_iff.mp h
  exact ⟨(checkRange_inv h1).1, by simpa using h2.symm⟩

/-- `MemRead` where LEN is at most CAP (R11). -/
theorem memRead_eq {s : State} (h : s.len.toNat ≤ s.cap.toNat) (a n : Nat) :
    memRead s a n = if s.len.toNat < a + n then raise .bounds else .ok (numberAt s a n) := by
  unfold memRead
  rw [readRange_eq h]
  split <;> rfl

theorem memRead_inv {s : State} {a n v : Nat} (h : memRead s a n = .ok v) :
    a + n ≤ s.len.toNat ∧ v = numberAt s a n := by
  obtain ⟨bs, h1, h2⟩ := bind_ok_iff.mp h
  obtain ⟨h3, rfl⟩ := readRange_inv h1
  exact ⟨h3, by simpa [numberAt] using h2.symm⟩

/-- `MemWrite` where LEN is at most CAP (R11). -/
theorem memWrite_eq {s : State} (h : s.len.toNat ≤ s.cap.toNat) (a n v : Nat) :
    memWrite s a n v =
      if s.len.toNat < a + n then raise .bounds
      else .ok { s with fb := Memory.writeBytes s.era s.fb a (beBytes n v) } := by
  unfold memWrite
  rw [checkRange_eq h]
  split <;> rfl

theorem memWrite_inv {s t : State} {a n v : Nat} (h : memWrite s a n v = .ok t) :
    a + n ≤ s.len.toNat ∧ (n = 0 ∨ a + n ≤ s.cap.toNat) ∧
      t = { s with fb := Memory.writeBytes s.era s.fb a (beBytes n v) } := by
  obtain ⟨u, h1, h2⟩ := bind_ok_iff.mp h
  obtain ⟨h3, h4⟩ := checkRange_inv h1
  exact ⟨h3, h4, by simpa using h2.symm⟩

/-- The number of one byte is that byte. -/
@[simp] theorem numberAt_one (s : State) (a : Nat) : numberAt s a 1 = byteAt s a := by
  simp [numberAt, byteAt, Memory.readBytes, beValue_cons]

theorem numberAt_lt (s : State) (a n : Nat) : numberAt s a n < 256 ^ n := by
  simpa [numberAt] using beValue_lt (Memory.readBytes s.era s.fb a n)

theorem byteAt_lt (s : State) (a : Nat) : byteAt s a < 256 := (Memory.read s.era s.fb a).isLt

/-- Writing a control register changes that register and no other (R191). -/
theorem writeCsr_inv {s t : State} {c : Csr} {v : Nat} (h : writeCsr s c v = .ok t) :
    (c = .len ∧ v ≤ s.cap.toNat ∧ t = { s with len := BitVec.ofNat 16 v }) ∨
    (c = .localMac ∧ t = { s with localMac := BitVec.ofNat 48 v }) ∨
    (c = .localIp ∧ v < 2 ^ 32 ∧ t = { s with localIp := BitVec.ofNat 32 v }) := by
  cases c <;> simp only [writeCsr, raise] at h
  · cases h
  · split at h
    · cases h
    · exact .inl ⟨rfl, by omega, by simpa using h.symm⟩
  · exact .inr (.inl ⟨rfl, by simpa using h.symm⟩)
  · split at h
    · cases h
    · exact .inr (.inr ⟨rfl, by omega, by simpa using h.symm⟩)
  · cases h
  · cases h
  · cases h

end Sys2Proof.Machine
end

