-- ==== Sys2Proof/Laws/Operands.lean ====
section
/-! SUPPORT. The offset functions, the slices of a container, and the selector tables. -/

namespace Sys2Proof.Machine

open Sys2Proof.Safety

/-- What an offset function comes to: what it raises, or its value. -/
def walked {α : Type} (f : Option Exc) (a : α) : Eval α :=
  match f with
  | some e => raise e
  | none => .ok a

@[simp] theorem walked_some {α : Type} (e : Exc) (a : α) : walked (some e) a = raise e := rfl

@[simp] theorem walked_none {α : Type} (a : α) : walked none a = .ok a := rfl

theorem walked_bind {α β : Type} (f : Option Exc) (a : α) (g : α → Eval β) :
    (walked f a >>= g) = match f with
      | some e => raise e
      | none => g a := by
  cases f <;> rfl

/-! ### Offset functions (R112 to R116) -/

theorem ihlNibble_lt (s : State) : ihlNibble s < 16 := Nat.mod_lt _ (by decide)

theorem doffNibble_lt (s : State) : doffNibble s < 16 := by
  have := byteAt_lt s (payloadAt s + 12)
  unfold doffNibble
  omega

theorem ihl_eq {s : State} (h : s.len.toNat ≤ s.cap.toNat) : ihl s = walked (ihlFail s) (ihlNibble s) := by
  have hs : slice (byteAt s 14) 3 0 = ihlNibble s := by simp [slice, ihlNibble]
  unfold ihl ihlFail
  rw [memRead_eq h]
  by_cases h1 : s.len.toNat < 15
  · simp [h1]
  · by_cases h2 : ihlNibble s < 5 <;> simp [h1, h2, hs]

theorem ipp_eq {s : State} (h : s.len.toNat ≤ s.cap.toNat) : ipp s = walked (ihlFail s) (payloadAt s) := by
  unfold ipp
  rw [ihl_eq h]
  cases ihlFail s <;> rfl

theorem dhb_eq {s : State} (h : s.len.toNat ≤ s.cap.toNat) :
    dhb s = walked (ihlFail s) (payloadAt s + 8) := by
  unfold dhb
  rw [ipp_eq h]
  cases ihlFail s <;> rfl

theorem doff_eq {s : State} (h : s.len.toNat ≤ s.cap.toNat) : doff s = walked (doffFail s) (doffNibble s) := by
  have hs : slice (byteAt s (payloadAt s + 12)) 7 4 = doffNibble s := by
    have := byteAt_lt s (payloadAt s + 12)
    simp only [slice, doffNibble]
    omega
  unfold doff doffFail
  rw [ipp_eq h]
  cases ihlFail s with
  | some e => rfl
  | none =>
    simp only [walked_none, ok_bind]
    rw [memRead_eq h]
    by_cases h1 : s.len.toNat < payloadAt s + 13
    · simp [h1]
    · by_cases h2 : doffNibble s < 5 <;> simp [h1, h2, hs]

theorem ihlFail_of_doffFail {s : State} (h : doffFail s = none) : ihlFail s = none := by
  unfold doffFail at h
  split at h
  · cases h
  · assumption

theorem tcpp_eq {s : State} (h : s.len.toNat ≤ s.cap.toNat) :
    tcpp s = walked (doffFail s) (tcpPayloadAt s) := by
  unfold tcpp
  rw [ipp_eq h, doff_eq h]
  unfold doffFail
  cases ihlFail s with
  | some e => rfl
  | none =>
    simp only [walked_none, ok_bind]
    split
    · rfl
    · split <;> rfl

/-- In any state, an IPv4 header length that is found is the nibble, at least 5. -/
theorem ihlFail_none {s : State} (h : ihlFail s = none) : 15 ≤ s.len.toNat ∧ 5 ≤ ihlNibble s := by
  unfold ihlFail at h
  split at h
  · cases h
  · split at h
    · cases h
    · omega

theorem doffFail_none {s : State} (h : doffFail s = none) :
    ihlFail s = none ∧ payloadAt s + 13 ≤ s.len.toNat ∧ 5 ≤ doffNibble s := by
  refine ⟨ihlFail_of_doffFail h, ?_⟩
  unfold doffFail at h
  rw [ihlFail_of_doffFail h] at h
  simp only at h
  split at h
  · cases h
  · split at h
    · cases h
    · omega

/-! ### Slices of a container (R128, R141) -/

theorem slice_lt (v hi lo : Nat) : slice v hi lo < 2 ^ (hi - lo + 1) := Nat.mod_lt _ (by positivity)

/-- The value put into a slice is read back from it. -/
theorem slice_putSlice {c hi lo v : Nat} (hlo : lo ≤ hi) (hv : v < 2 ^ (hi - lo + 1)) :
    slice (putSlice c hi lo v) hi lo = v := by
  have h1 : 2 ^ (hi + 1) = 2 ^ (hi - lo + 1) * 2 ^ lo := by
    rw [← Nat.pow_add]
    congr 1
    omega
  have hp : 0 < 2 ^ lo := by positivity
  have hc : c % 2 ^ lo < 2 ^ lo := Nat.mod_lt _ hp
  unfold slice putSlice
  rw [h1]
  have h2 : c / (2 ^ (hi - lo + 1) * 2 ^ lo) * (2 ^ (hi - lo + 1) * 2 ^ lo) + v * 2 ^ lo + c % 2 ^ lo =
      2 ^ lo * (c / (2 ^ (hi - lo + 1) * 2 ^ lo) * 2 ^ (hi - lo + 1) + v) + c % 2 ^ lo := by ring
  rw [h2, Nat.mul_add_div hp, Nat.div_eq_of_lt hc, Nat.add_zero, Nat.mul_comm, Nat.mul_add_mod,
    Nat.mod_eq_of_lt hv]

/-- The bits below a slice are kept. -/
theorem putSlice_mod {c hi lo v : Nat} (hlo : lo ≤ hi) : putSlice c hi lo v % 2 ^ lo = c % 2 ^ lo := by
  have h1 : 2 ^ (hi + 1) = 2 ^ lo * 2 ^ (hi - lo + 1) := by
    rw [← Nat.pow_add]
    congr 1
    omega
  unfold putSlice
  rw [h1]
  have h2 : c / (2 ^ lo * 2 ^ (hi - lo + 1)) * (2 ^ lo * 2 ^ (hi - lo + 1)) + v * 2 ^ lo + c % 2 ^ lo =
      2 ^ lo * (c / (2 ^ lo * 2 ^ (hi - lo + 1)) * 2 ^ (hi - lo + 1) + v) + c % 2 ^ lo := by ring
  rw [h2, Nat.mul_add_mod, Nat.mod_mod]

/-- The bits above a slice are kept. -/
theorem putSlice_div {c hi lo v : Nat} (hlo : lo ≤ hi) (hv : v < 2 ^ (hi - lo + 1)) :
    putSlice c hi lo v / 2 ^ (hi + 1) = c / 2 ^ (hi + 1) := by
  have h1 : 2 ^ (hi + 1) = 2 ^ (hi - lo + 1) * 2 ^ lo := by
    rw [← Nat.pow_add]
    congr 1
    omega
  have hc : c % 2 ^ lo < 2 ^ lo := Nat.mod_lt _ (by positivity)
  have hsum : v * 2 ^ lo + c % 2 ^ lo < 2 ^ (hi + 1) := by
    have h3 : (v + 1) * 2 ^ lo ≤ 2 ^ (hi - lo + 1) * 2 ^ lo := Nat.mul_le_mul_right _ hv
    rw [h1]
    rw [Nat.add_mul] at h3
    omega
  unfold putSlice
  rw [Nat.add_assoc, Nat.mul_comm, Nat.mul_add_div (by positivity), Nat.div_eq_of_lt hsum, Nat.add_zero]

/-- A container with a slice replaced still fits its bytes. -/
theorem putSlice_lt {c hi lo v n : Nat} (hlo : lo ≤ hi) (hv : v < 2 ^ (hi - lo + 1)) (hn : hi < 8 * n)
    (hc : c < 256 ^ n) : putSlice c hi lo v < 256 ^ n := by
  have h256 : 256 ^ n = 2 ^ (8 * n) := by
    rw [Nat.pow_mul]
  rw [h256] at hc ⊢
  have hsplit : 2 ^ (8 * n) = 2 ^ (hi + 1) * 2 ^ (8 * n - (hi + 1)) := by
    rw [← Nat.pow_add]
    congr 1
    omega
  rw [hsplit] at hc ⊢
  have h1 : c / 2 ^ (hi + 1) < 2 ^ (8 * n - (hi + 1)) := Nat.div_lt_of_lt_mul hc
  exact Nat.lt_mul_of_div_lt (by rw [putSlice_div hlo hv]; exact h1) (by positivity) |> fun h => by
    simpa [Nat.mul_comm] using h

/-! ### The selector tables -/

/-- A row that is looked up is a row of the table, and it is the field id's own. -/
theorem fieldRow_inv {fid : BitVec 8} {r : FieldRow} (h : fieldRow fid = some r) :
    r ∈ fieldTable ∧ r.fid = fid :=
  ⟨List.mem_of_find?_eq_some h, by simpa using List.find?_some h⟩

/-- Every row's slice lies inside its container, and every container is 1, 2, 4 or 6 bytes (R45). -/
theorem fieldTable_shape :
    ∀ r ∈ fieldTable, r.lo ≤ r.hi ∧ r.hi < 8 * r.container ∧ r.container ∈ [1, 2, 4, 6] := by decide

theorem byteCount_inv {n : BitVec 8} {k : Nat} (h : byteCount n = some k) :
    k = n.toNat ∧ (k = 1 ∨ k = 2 ∨ k = 4) := by
  unfold byteCount at h
  split at h <;> simp_all

end Sys2Proof.Machine
end

