-- ==== Sys2Proof/Laws/PerInstr.lean ====
section
/-! SUPPORT. The family RowMatch, one lemma per instruction: the word of an instruction fits a row of R62, its
opcode as the row's and every reserved bit 0. -/

namespace Sys2Proof.Laws.RowMatch

/-- The word of the instruction fits a row of the opcode map (R62). -/
def Statement (i : Instr) : Prop := ∃ r ∈ opcodeTable, encode i &&& r.mask = r.value

/-- A row of the opcode map that an instruction's word fits, found by its place in the map. -/
theorem of_row (k : Nat) (h : k < opcodeTable.length) {i : Instr} {opc s ms : BitVec 8} {v mv : BitVec 48}
    (hi : encode i = wordOf opc s v) (hm : opcodeTable[k].mask = wordOf 0xFF ms mv)
    (hw : opcodeTable[k].value = wordOf opc 0 0) (hs : s &&& ms = 0) (hv : v &&& mv = 0) : Statement i :=
  ⟨opcodeTable[k], List.getElem_mem h, by rw [hi, hm, hw, wordOf_and_mask hs hv]⟩

/-- ACC's operands leave `a2` 0. -/
theorem accArg_reserved (off len : BitVec 16) : (0#16 ++ off ++ len) &&& 0xFFFF00000000#48 = 0 := by
  show (0#16 ++ off ++ len : BitVec (16 + 16 + 16)) &&& (0xFFFF#16 ++ 0#16 ++ 0#16) = 0
  rw [BitVec.and_append, BitVec.and_append]
  simp

/-- The operand of ACCPH and of LDBE leaves `a2` and `a1` 0. -/
theorem lowArg_reserved (x : BitVec 16) : (0#32 ++ x) &&& 0xFFFFFFFF0000#48 = 0 := by
  show (0#32 ++ x : BitVec (32 + 16)) &&& (0xFFFFFFFF#32 ++ 0#16) = 0
  rw [BitVec.and_append]
  simp

theorem rdcsr (csr : BitVec 8) : Statement (.rdcsr csr) :=
  of_row 0 (by decide) (ms := 0x00) (mv := 0xFFFFFFFFFFFF) rfl rfl rfl BitVec.and_zero (by decide)

theorem wrcsr (csr : BitVec 8) (value : BitVec 48) : Statement (.wrcsr csr value) :=
  of_row 1 (by decide) (ms := 0x00) (mv := 0x000000000000) rfl rfl rfl BitVec.and_zero BitVec.and_zero

theorem acc (off : BitVec 16) (len : BitVec 16) : Statement (.acc off len) :=
  of_row 2 (by decide) (ms := 0xFF) (mv := 0xFFFF00000000) rfl rfl rfl (by decide) (accArg_reserved off len)

theorem accph (len : BitVec 16) : Statement (.accph len) :=
  of_row 3 (by decide) (ms := 0xFF) (mv := 0xFFFFFFFF0000) rfl rfl rfl (by decide) (lowArg_reserved len)

theorem fin : Statement .fin :=
  of_row 4 (by decide) (ms := 0xFF) (mv := 0xFFFFFFFFFFFF) rfl rfl rfl (by decide) (by decide)

theorem getf (fid : BitVec 8) : Statement (.getf fid) :=
  of_row 5 (by decide) (ms := 0x00) (mv := 0xFFFFFFFFFFFF) rfl rfl rfl BitVec.and_zero (by decide)

theorem setf (fid : BitVec 8) (value : BitVec 48) : Statement (.setf fid value) :=
  of_row 6 (by decide) (ms := 0x00) (mv := 0x000000000000) rfl rfl rfl BitVec.and_zero BitVec.and_zero

theorem offs (lid : BitVec 8) : Statement (.offs lid) :=
  of_row 7 (by decide) (ms := 0x00) (mv := 0xFFFFFFFFFFFF) rfl rfl rfl BitVec.and_zero (by decide)

theorem plen (lid : BitVec 8) : Statement (.plen lid) :=
  of_row 8 (by decide) (ms := 0x00) (mv := 0xFFFFFFFFFFFF) rfl rfl rfl BitVec.and_zero (by decide)

theorem ldbe (n : BitVec 8) (off : BitVec 16) : Statement (.ldbe n off) :=
  of_row 9 (by decide) (ms := 0x00) (mv := 0xFFFFFFFF0000) rfl rfl rfl BitVec.and_zero (lowArg_reserved off)

theorem stbe (n : BitVec 8) (off : BitVec 16) (value : BitVec 32) : Statement (.stbe n off value) :=
  of_row 10 (by decide) (ms := 0x00) (mv := 0x000000000000) rfl rfl rfl BitVec.and_zero BitVec.and_zero

theorem dhopt (code : BitVec 8) : Statement (.dhopt code) :=
  of_row 11 (by decide) (ms := 0x00) (mv := 0xFFFFFFFFFFFF) rfl rfl rfl BitVec.and_zero (by decide)

theorem isip : Statement .isip :=
  of_row 12 (by decide) (ms := 0xFF) (mv := 0xFFFFFFFFFFFF) rfl rfl rfl (by decide) (by decide)

theorem isucast : Statement .isucast :=
  of_row 13 (by decide) (ms := 0xFF) (mv := 0xFFFFFFFFFFFF) rfl rfl rfl (by decide) (by decide)

theorem isbcast : Statement .isbcast :=
  of_row 14 (by decide) (ms := 0xFF) (mv := 0xFFFFFFFFFFFF) rfl rfl rfl (by decide) (by decide)

theorem isarpreq : Statement .isarpreq :=
  of_row 15 (by decide) (ms := 0xFF) (mv := 0xFFFFFFFFFFFF) rfl rfl rfl (by decide) (by decide)

theorem isping : Statement .isping :=
  of_row 16 (by decide) (ms := 0xFF) (mv := 0xFFFFFFFFFFFF) rfl rfl rfl (by decide) (by decide)

theorem isudp : Statement .isudp :=
  of_row 17 (by decide) (ms := 0xFF) (mv := 0xFFFFFFFFFFFF) rfl rfl rfl (by decide) (by decide)

theorem istcp : Statement .istcp :=
  of_row 18 (by decide) (ms := 0xFF) (mv := 0xFFFFFFFFFFFF) rfl rfl rfl (by decide) (by decide)

theorem isoffer : Statement .isoffer :=
  of_row 19 (by decide) (ms := 0xFF) (mv := 0xFFFFFFFFFFFF) rfl rfl rfl (by decide) (by decide)

theorem isack : Statement .isack :=
  of_row 20 (by decide) (ms := 0xFF) (mv := 0xFFFFFFFFFFFF) rfl rfl rfl (by decide) (by decide)

theorem issynack : Statement .issynack :=
  of_row 21 (by decide) (ms := 0xFF) (mv := 0xFFFFFFFFFFFF) rfl rfl rfl (by decide) (by decide)

theorem ispshack : Statement .ispshack :=
  of_row 22 (by decide) (ms := 0xFF) (mv := 0xFFFFFFFFFFFF) rfl rfl rfl (by decide) (by decide)

theorem isfinack : Statement .isfinack :=
  of_row 23 (by decide) (ms := 0xFF) (mv := 0xFFFFFFFFFFFF) rfl rfl rfl (by decide) (by decide)

end Sys2Proof.Laws.RowMatch
end

