-- ==== Sys2Proof/Machine/Assembler.lean ====
section
/-! DEFINITION. The written form of a command (R71, R73) and the pseudo-instructions of R72, which the block never
sees: the host expands them into real commands. -/

namespace Sys2Proof.Machine

/-- The mnemonic of an instruction (R62, R73). -/
def mnemonic : Instr → String
  | .rdcsr _ => "RDCSR"
  | .wrcsr _ _ => "WRCSR"
  | .acc _ _ => "ACC"
  | .accph _ => "ACCPH"
  | .fin => "FIN"
  | .getf _ => "GETF"
  | .setf _ _ => "SETF"
  | .offs _ => "OFFS"
  | .plen _ => "PLEN"
  | .ldbe _ _ => "LDBE"
  | .stbe _ _ _ => "STBE"
  | .dhopt _ => "DHOPT"
  | .isip => "ISIP"
  | .isucast => "ISUCAST"
  | .isbcast => "ISBCAST"
  | .isarpreq => "ISARPREQ"
  | .isping => "ISPING"
  | .isudp => "ISUDP"
  | .istcp => "ISTCP"
  | .isoffer => "ISOFFER"
  | .isack => "ISACK"
  | .issynack => "ISSYNACK"
  | .ispshack => "ISPSHACK"
  | .isfinack => "ISFINACK"

/-- The operands of an instruction in the order they are written (R71): `sel` first, then the parts of `arg` from
most to least significant. -/
def operands : Instr → List Nat
  | .rdcsr csr => [csr.toNat]
  | .wrcsr csr value => [csr.toNat, value.toNat]
  | .acc off len => [off.toNat, len.toNat]
  | .accph len => [len.toNat]
  | .fin => []
  | .getf fid => [fid.toNat]
  | .setf fid value => [fid.toNat, value.toNat]
  | .offs lid => [lid.toNat]
  | .plen lid => [lid.toNat]
  | .ldbe n off => [n.toNat, off.toNat]
  | .stbe n off value => [n.toNat, off.toNat, value.toNat]
  | .dhopt code => [code.toNat]
  | .isip => []
  | .isucast => []
  | .isbcast => []
  | .isarpreq => []
  | .isping => []
  | .isudp => []
  | .istcp => []
  | .isoffer => []
  | .isack => []
  | .issynack => []
  | .ispshack => []
  | .isfinack => []

/-- One command as a line of assembler text (R71), every number decimal (DESIGN CHOICE, log entry 11). -/
def assemblerText (i : Instr) : String :=
  match operands i with
  | [] => mnemonic i
  | ns => mnemonic i ++ " " ++ ", ".intercalate (ns.map Nat.repr)

/-- The pseudo-instructions of R72. -/
inductive Pseudo where
  | setlen (n : BitVec 16)
  | load (bytes : List Byte)
  | verify (off len : BitVec 16)
  | csum (off len : BitVec 16)
  | pseudo (len : BitVec 16)
  deriving DecidableEq, Repr

/-- The stores of `LOAD` (R72): `STBE 1, i, b_i` from address `a` up. -/
def storeBytes : Nat → List Byte → List Instr
  | _, [] => []
  | a, b :: bs => .stbe 1 (BitVec.ofNat 16 a) (b.setWidth 32) :: storeBytes (a + 1) bs

/-- What a pseudo-instruction expands to (R72). -/
def expand : Pseudo → List Instr
  | .setlen n => [.wrcsr 1 (n.setWidth 48)]
  | .load bytes => .wrcsr 1 (BitVec.ofNat 48 bytes.length) :: storeBytes 0 bytes
  | .verify off len => [.acc off len, .fin]
  | .csum off len => [.acc off len, .fin]
  | .pseudo len => [.accph len]

end Sys2Proof.Machine
end

