-- ==== Sys2Proof/Tests/Slice0.lean ====
section
/-! SUPPORT. Tests. Every expected value stands in the spec: the words of R62, R71 and of the operations' own rules,
and the frames and answers of the spec's test vectors (files 95 and 96). The last part has a witness for every
statement with hypotheses. -/

namespace Sys2Proof.Tests

open Sys2Proof.Machine Sys2Proof.Safety

/-! ### Well-formedness: each check refuses an ill-formed term, and lets the last legal value pass -/

theorem test_wellFormed_rdcsr : (Instr.rdcsr 7).wellFormed = false ∧ (Instr.rdcsr 6).wellFormed = true := by decide

theorem test_wellFormed_wrcsr_readOnly :
    (Instr.wrcsr 0 1).wellFormed = false ∧ (Instr.wrcsr 4 0).wellFormed = false ∧
    (Instr.wrcsr 5 0).wellFormed = false ∧ (Instr.wrcsr 6 0).wellFormed = false ∧
    (Instr.wrcsr 7 0).wellFormed = false := by decide

theorem test_wellFormed_wrcsr_width :
    (Instr.wrcsr 1 0x10000).wellFormed = false ∧ (Instr.wrcsr 1 0xFFFF).wellFormed = true ∧
    (Instr.wrcsr 3 0x100000000).wellFormed = false ∧ (Instr.wrcsr 3 0xFFFFFFFF).wellFormed = true ∧
    (Instr.wrcsr 2 0xFFFFFFFFFFFF).wellFormed = true := by decide

theorem test_wellFormed_getf : (Instr.getf 0x03).wellFormed = false ∧ (Instr.getf 0x73).wellFormed = true := by decide

theorem test_wellFormed_setf :
    (Instr.setf 0x74 0).wellFormed = false ∧ (Instr.setf 0x10 16).wellFormed = false ∧
    (Instr.setf 0x10 15).wellFormed = true ∧ (Instr.setf 0x73 128).wellFormed = false ∧
    (Instr.setf 0x73 127).wellFormed = true ∧ (Instr.setf 0x00 0xFFFFFFFFFFFF).wellFormed = true := by decide

theorem test_wellFormed_layers :
    (Instr.offs 9).wellFormed = false ∧ (Instr.offs 8).wellFormed = true ∧
    (Instr.plen 9).wellFormed = false ∧ (Instr.plen 8).wellFormed = true := by decide

theorem test_wellFormed_ldbe :
    (Instr.ldbe 0 0).wellFormed = false ∧ (Instr.ldbe 3 0).wellFormed = false ∧
    (Instr.ldbe 6 0).wellFormed = false ∧ (Instr.ldbe 4 0xFFFF).wellFormed = true := by decide

theorem test_wellFormed_stbe :
    (Instr.stbe 3 0 0).wellFormed = false ∧ (Instr.stbe 1 45 0x100).wellFormed = false ∧
    (Instr.stbe 1 45 0xFF).wellFormed = true ∧ (Instr.stbe 2 0 0x10000).wellFormed = false ∧
    (Instr.stbe 4 0 0xFFFFFFFF).wellFormed = true := by decide

theorem test_wellFormed_dhopt : (Instr.dhopt 255).wellFormed = false ∧ (Instr.dhopt 254).wellFormed = true := by
  decide

/-! ### Decoding: a word the spec writes out for every operation -/

theorem test_decode_control :
    decode 0x0101000000000000 = .ok (.rdcsr 1) ∧ decode 0x0106000000000000 = .ok (.rdcsr 6) ∧
    decode 0x020100000000002E = .ok (.wrcsr 1 46) ∧ decode 0x0202020304050607 = .ok (.wrcsr 2 0x020304050607) ∧
    decode 0x02030000C0A80132 = .ok (.wrcsr 3 0xC0A80132) := ⟨rfl, rfl, rfl, rfl, rfl⟩

theorem test_decode_csum :
    decode 0x1000000000000008 = .ok (.acc 0 8) ∧ decode 0x10000000000E0014 = .ok (.acc 14 20) ∧
    decode 0x110000000000000B = .ok (.accph 11) ∧ decode 0x1200000000000000 = .ok .fin := ⟨rfl, rfl, rfl, rfl⟩

theorem test_decode_codec :
    decode 0x2013000000000000 = .ok (.getf 0x13) ∧ decode 0x2116000000000040 = .ok (.setf 0x16 64) ∧
    decode 0x2203000000000000 = .ok (.offs 3) ∧ decode 0x2303000000000000 = .ok (.plen 3) ∧
    decode 0x240400000000011F = .ok (.ldbe 4 287) ∧ decode 0x2502000C00000800 = .ok (.stbe 2 12 0x0800) ∧
    decode 0x2635000000000000 = .ok (.dhopt 53) := ⟨rfl, rfl, rfl, rfl, rfl, rfl, rfl⟩

theorem test_decode_cls :
    decode 0x3000000000000000 = .ok .isip ∧ decode 0x3100000000000000 = .ok .isucast ∧
    decode 0x3200000000000000 = .ok .isbcast ∧ decode 0x3300000000000000 = .ok .isarpreq ∧
    decode 0x3400000000000000 = .ok .isping ∧ decode 0x3500000000000000 = .ok .isudp ∧
    decode 0x3600000000000000 = .ok .istcp ∧ decode 0x3700000000000000 = .ok .isoffer ∧
    decode 0x3800000000000000 = .ok .isack ∧ decode 0x3900000000000000 = .ok .issynack ∧
    decode 0x3A00000000000000 = .ok .ispshack ∧ decode 0x3B00000000000000 = .ok .isfinack :=
  ⟨rfl, rfl, rfl, rfl, rfl, rfl, rfl, rfl, rfl, rfl, rfl, rfl⟩

/-- The illegal words of the spec's decoding vectors: an `op` outside the table. -/
theorem test_decode_unknownOp :
    decode 0 = .error .unknownOp ∧ decode 0xFFFFFFFFFFFFFFFF = .error .unknownOp ∧
    decode 0x0300000000000000 = .error .unknownOp ∧ decode 0x1300000000000000 = .error .unknownOp ∧
    decode 0x2700000000000000 = .error .unknownOp ∧ decode 0x3C00000000000000 = .error .unknownOp :=
  ⟨rfl, rfl, rfl, rfl, rfl, rfl⟩

/-- The illegal words of the spec's decoding vectors: a reserved bit set. -/
theorem test_decode_reservedBit :
    decode 0x1200000000000001 = .error .reservedBit ∧ decode 0x1201000000000000 = .error .reservedBit ∧
    decode 0x1001000000000000 = .error .reservedBit ∧ decode 0x1000000100000000 = .error .reservedBit ∧
    decode 0x1100000000010000 = .error .reservedBit ∧ decode 0x3000010000000000 = .error .reservedBit ∧
    decode 0x3B80000000000000 = .error .reservedBit ∧ decode 0x0100000000000001 = .error .reservedBit ∧
    decode 0x2300000000000100 = .error .reservedBit ∧ decode 0x2635000000000001 = .error .reservedBit ∧
    decode 0x2404000000010000 = .error .reservedBit :=
  ⟨rfl, rfl, rfl, rfl, rfl, rfl, rfl, rfl, rfl, rfl, rfl⟩

theorem test_encode :
    encode (.acc 14 20) = 0x10000000000E0014 ∧ encode (.stbe 2 12 0x0800) = 0x2502000C00000800 ∧
    encode (.ldbe 4 287) = 0x240400000000011F ∧ encode (.setf 0x16 63) = 0x211600000000003F := by decide

theorem test_decodeTableWord :
    decodeTableWord 64 0x1000000000000008 = some (.acc 0 8) ∧ decodeTableWord 64 0 = none := by decide

/-- R71's own lines of assembler, selectors and numbers in decimal. -/
theorem test_assemblerText :
    assemblerText (.acc 14 20) = "ACC 14, 20" ∧ assemblerText (.stbe 2 12 2048) = "STBE 2, 12, 2048" ∧
    assemblerText .isip = "ISIP" := by decide +kernel

/-! ### The frames of section 3 of the test vectors -/

/-- A state with the `n` bytes of a number in FB from address 0, LEN = `n`, and the registers of the vectors. -/
def loaded (n v : Nat) : State :=
  { State.reset with
    fb := (beBytes n v).zipIdx.map (fun c => (c.2, c.1))
    len := BitVec.ofNat 16 n
    localMac := 0x020304050607
    localIp := 0xC0A80132
    cap := 1522 }

/-- ICMP echo request. -/
def frameA : State := loaded 46
  0x020304050607001B213C9DF80800450000201C46400040019B13C0A80101C0A801320800332F0001000961626364

/-- UDP datagram of odd length. -/
def frameB : State := loaded 45
  0x020304050607001B213C9DF808004500001F1C46400040119B04C0A80101C0A80132C3500400000BDF9C6F6666

/-- ARP request. -/
def frameC : State := loaded 42
  0xFFFFFFFFFFFF001B213C9DF808060001080006040001001B213C9DF8C0A80101000000000000C0A80132

/-- TCP PSH+ACK with an MQTT PUBLISH. -/
def frameE : State := loaded 66
  0x020304050607001B213C9DF80800450000341C46400040069AFAC0A80101C0A80132075BC351000010000000200050180200B3410000300A00047465737431323334

/-- TCP SYN+ACK with one option word. -/
def frameF : State := loaded 58
  0x020304050607001B213C9DF808004500002C1C46400040069B02C0A80101C0A80132075BC3510000ABCD00000001601272102C070000020405B4

/-- TCP FIN+ACK. -/
def frameG : State := loaded 54
  0x020304050607001B213C9DF80800450000281C46400040069B06C0A80101C0A80132075BC3510000100C00002000501102002F970000

/-- ICMP echo request behind IPv4 options. -/
def frameH : State := loaded 46
  0x020304050607001B213C9DF80800460000201C46400040019812C0A80101C0A80132010101000800F7FC00020001

/-- DHCP OFFER. -/
def frameD : State := loaded 316
  (0xFFFFFFFFFFFF001B213C9DF808004500012E000000004011B816C0A80101FFFFFFFF00430044011A0E8E020106003903F3260000800000000000C0A80132C0A8010100000000020304050607 * 256 ^ 240 +
   0x638253633501023604C0A801013304000151800104FFFFFF000304C0A80101060408080808FF)

/-- The 8-byte buffer of R96. -/
def buffer8 : State := loaded 8 0x0001F203F4F5F6F7

/-- The state with LEN changed. -/
def withLen (s : State) (n : Nat) : State := { s with len := BitVec.ofNat 16 n }

/-- The response (RES, ST) of a step that goes on. -/
def response (o : Host.Outcome State Fault Refusal) : Option (Nat × Nat) :=
  match o with
  | .next t => some (t.res.toNat, t.st.toNat)
  | .fault _ => none
  | .refused _ => none

/-- SUM after a step that goes on. -/
def sumAfter (o : Host.Outcome State Fault Refusal) : Option Nat :=
  match o with
  | .next t => some t.sum.toNat
  | .fault _ => none
  | .refused _ => none

/-! ### Control -/

theorem test_rdcsr :
    response (exec (.rdcsr 0) frameA) = some (0x5F2, 0) ∧ response (exec (.rdcsr 1) frameA) = some (46, 0) ∧
    response (exec (.rdcsr 2) frameA) = some (0x020304050607, 0) ∧
    response (exec (.rdcsr 7) frameA) = some (0, 2) := by decide +kernel

theorem test_rdcsr_st_returns_the_old_code :
    response (exec (.rdcsr 6) { frameA with st := 3 }) = some (3, 0) := by decide +kernel

theorem test_wrcsr_len_up_to_bufCap :
    response (exec (.wrcsr 1 1522) frameA) = some (1522, 0) ∧
    response (exec (.wrcsr 1 1523) frameA) = some (0, 2) := by decide +kernel

theorem test_wrcsr_refuses :
    response (exec (.wrcsr 3 0x100000000) frameA) = some (0, 2) ∧ response (exec (.wrcsr 4 1) frameA) = some (0, 2) ∧
    response (exec (.wrcsr 0 1) frameA) = some (0, 2) := by decide +kernel

/-! ### Checksum unit -/

theorem test_acc :
    response (exec (.acc 0 8) buffer8) = some (0x2DDF0, 0) ∧ response (exec (.acc 0 7) buffer8) = some (0x2DCF9, 0) ∧
    response (exec (.acc 1 6) buffer8) = some (0xFBDC, 0) ∧
    response (exec (.acc 8 0) buffer8) = some (0, 0) := by decide +kernel

theorem test_acc_bounds :
    response (exec (.acc 0 9) buffer8) = some (0, 3) ∧ response (exec (.acc 8 1) buffer8) = some (0, 3) ∧
    response (exec (.acc 9 0) buffer8) = some (0, 3) ∧
    response (exec (.acc 65535 65535) buffer8) = some (0, 3) := by decide +kernel

theorem test_accph :
    response (exec (.accph 11) frameB) = some (0x1839F, 0) ∧ response (exec (.accph 32) frameE) = some (0x183A9, 0) ∧
    response (exec (.accph 0) (withLen frameA 34)) = some (0x18384, 0) := by decide +kernel

theorem test_accph_bounds : response (exec (.accph 0) (withLen frameA 33)) = some (0, 3) := by decide +kernel

theorem test_fin :
    response (exec .fin { buffer8 with sum := 0x2DDF0 }) = some (0x220D, 0) ∧
    sumAfter (exec .fin { buffer8 with sum := 0x2DDF0 }) = some 0 := by decide +kernel

/-- The function vectors of R93 and R94. -/
theorem test_fold :
    fold 0xFFFF0001 = 0x0001 ∧ fold 0xFFFFFFFF = 0xFFFF ∧ fold 0x10000 = 0x0001 ∧ fold 0x1FFFE = 0xFFFF ∧
    finish 0x10000 = 0xFFFE ∧ finish 0x2FFFD = 0 := by decide

/-! ### Codec -/

theorem test_getf :
    response (exec (.getf 0x13) frameA) = some (0x0020, 0) ∧
    response (exec (.getf 0x01) frameA) = some (0x001B213C9DF8, 0) ∧
    response (exec (.getf 0x55) frameE) = some (5, 0) ∧ response (exec (.getf 0x56) frameE) = some (0x18, 0) ∧
    response (exec (.getf 0x71) frameE) = some (3, 0) ∧ response (exec (.getf 0x73) frameE) = some (10, 0) ∧
    response (exec (.getf 0x5A) frameF) = some (0x0204, 0) := by decide +kernel

theorem test_getf_format :
    response (exec (.getf 0x5A) frameE) = some (0, 4) ∧ response (exec (.getf 0x11) frameC) = some (0, 0) ∧
    response (exec (.getf 0x30) frameC) = some (0, 4) ∧
    response (exec (.getf 0x30) (withLen frameA 14)) = some (0, 3) := by decide +kernel

theorem test_setf_refuses :
    response (exec (.setf 0x10 16) frameA) = some (0, 2) ∧ response (exec (.setf 0x16 256) frameA) = some (0, 2) ∧
    response (exec (.setf 0x73 128) frameE) = some (0, 2) := by decide +kernel

/-- `SETF IP_IHL, 6` on frame A turns the byte 0x45 into 0x46, and `SETF TCP_FLAGS, 0x1A` on frame E turns 0x5018
into 0x501A (R141). -/
theorem test_setf_keeps_the_other_bits :
    putSlice 0x45 3 0 6 = 0x46 ∧ putSlice 0x5018 5 0 0x1A = 0x501A ∧ putSlice 0x30 7 4 12 = 0xC0 := by decide

theorem test_offs :
    response (exec (.offs 3) frameH) = some (38, 0) ∧ response (exec (.offs 2) frameH) = some (34, 0) ∧
    response (exec (.offs 7) frameD) = some (282, 0) ∧ response (exec (.offs 4) frameF) = some (54, 0) ∧
    response (exec (.offs 8) frameE) = some (56, 0) ∧ response (exec (.offs 6) frameG) = some (54, 0) := by
  decide +kernel

theorem test_offs_raises :
    response (exec (.offs 3) frameC) = some (0, 4) ∧ response (exec (.offs 1) (withLen frameA 13)) = some (0, 3) ∧
    response (exec (.offs 9) frameA) = some (0, 2) := by decide +kernel

theorem test_plen :
    response (exec (.plen 3) frameA) = some (12, 0) ∧ response (exec (.plen 5) frameD) = some (274, 0) ∧
    response (exec (.plen 7) frameD) = some (34, 0) ∧ response (exec (.plen 6) frameE) = some (12, 0) ∧
    response (exec (.plen 8) frameE) = some (10, 0) ∧ response (exec (.plen 4) frameF) = some (4, 0) ∧
    response (exec (.plen 2) frameH) = some (4, 0) := by decide +kernel

theorem test_plen_raises :
    response (exec (.plen 5) frameA) = some (0, 4) ∧ response (exec (.plen 3) (withLen frameA 45)) = some (0, 3) ∧
    response (exec (.plen 9) frameA) = some (0, 2) := by decide +kernel

theorem test_ldbe :
    response (exec (.ldbe 4 287) frameD) = some (0xC0A80101, 0) ∧
    response (exec (.ldbe 4 42) frameA) = some (0x61626364, 0) ∧
    response (exec (.ldbe 1 45) frameA) = some (0x64, 0) := by decide +kernel

theorem test_ldbe_bounds :
    response (exec (.ldbe 4 43) frameA) = some (0, 3) ∧ response (exec (.ldbe 1 46) frameA) = some (0, 3) ∧
    response (exec (.ldbe 3 0) frameA) = some (0, 2) := by decide +kernel

theorem test_stbe_raises :
    response (exec (.stbe 2 45 0xBEEF) frameA) = some (0, 3) ∧
    response (exec (.stbe 1 45 0x100) (withLen frameA 40)) = some (0, 2) := by decide +kernel

/-- `STBE 2, 12, 0x0800` writes 0x08 at address 12 and 0x00 at 13 (R145), whatever stood there. -/
theorem test_stbe_writes (m : Memory) :
    Memory.read 0 (Memory.writeBytes 0 m 12 (beBytes 2 0x0800)) 12 = 0x08 ∧
    Memory.read 0 (Memory.writeBytes 0 m 12 (beBytes 2 0x0800)) 13 = 0x00 := by
  constructor <;> (rw [read_writeBytes]; rfl)

theorem test_dhopt :
    response (exec (.dhopt 53) frameD) = some (0x0001011C, 0) ∧
    response (exec (.dhopt 54) frameD) = some (0x0004011F, 0) ∧
    response (exec (.dhopt 6) (withLen frameD 315)) = some (0x00040137, 0) := by decide +kernel

theorem test_dhopt_raises :
    response (exec (.dhopt 50) frameD) = some (0, 5) ∧ response (exec (.dhopt 0) frameD) = some (0, 5) ∧
    response (exec (.dhopt 255) frameD) = some (0, 2) ∧
    response (exec (.dhopt 50) (withLen frameD 315)) = some (0, 3) := by decide +kernel

/-! ### Classifier -/

theorem test_isip :
    response (exec .isip frameA) = some (1, 0) ∧ response (exec .isip frameC) = some (0, 0) ∧
    response (exec .isip frameH) = some (1, 0) ∧
    response (exec .isip (withLen frameA 34)) = some (1, 0) := by decide +kernel

theorem test_isip_clears_sum_when_it_raises :
    response (exec .isip { withLen frameA 33 with sum := 7 }) = some (0, 3) ∧
    sumAfter (exec .isip { withLen frameA 33 with sum := 7 }) = some 0 := by decide +kernel

theorem test_isucast :
    response (exec .isucast frameA) = some (1, 0) ∧ response (exec .isucast frameD) = some (0, 0) ∧
    response (exec .isucast { frameA with localIp := 0xC0A80133 }) = some (0, 0) ∧
    response (exec .isucast (withLen frameA 33)) = some (0, 3) := by decide +kernel

theorem test_isbcast :
    response (exec .isbcast frameD) = some (1, 0) ∧ response (exec .isbcast frameA) = some (0, 0) ∧
    response (exec .isbcast frameC) = some (0, 0) := by decide +kernel

theorem test_isarpreq :
    response (exec .isarpreq frameC) = some (1, 0) ∧
    response (exec .isarpreq { frameC with localIp := 0xC0A80133 }) = some (0, 0) ∧
    response (exec .isarpreq (withLen frameC 41)) = some (0, 3) ∧
    response (exec .isarpreq (withLen frameA 14)) = some (0, 0) := by decide +kernel

theorem test_isping :
    response (exec .isping frameA) = some (1, 0) ∧ response (exec .isping frameH) = some (1, 0) ∧
    response (exec .isping frameB) = some (0, 0) ∧ response (exec .isping (withLen frameA 34)) = some (0, 3) ∧
    response (exec .isping (withLen frameA 35)) = some (1, 0) := by decide +kernel

theorem test_isudp :
    response (exec .isudp frameB) = some (1, 0) ∧ response (exec .isudp frameD) = some (1, 0) ∧
    response (exec .isudp frameA) = some (0, 0) ∧
    response (exec .isudp (withLen frameB 44)) = some (0, 3) := by decide +kernel

theorem test_istcp :
    response (exec .istcp frameE) = some (1, 0) ∧ response (exec .istcp frameF) = some (1, 0) ∧
    response (exec .istcp frameG) = some (1, 0) ∧ response (exec .istcp frameB) = some (0, 0) := by decide +kernel

theorem test_isoffer :
    response (exec .isoffer frameD) = some (1, 0) ∧
    response (exec .isoffer { frameD with localMac := 0x020304050608 }) = some (0, 0) ∧
    response (exec .isoffer (withLen frameD 284)) = some (0, 3) ∧
    response (exec .isoffer (withLen frameD 285)) = some (1, 0) ∧
    response (exec .isoffer frameC) = some (0, 4) := by decide +kernel

theorem test_isack : response (exec .isack frameD) = some (0, 0) := by decide +kernel

theorem test_issynack :
    response (exec .issynack frameF) = some (1, 0) ∧ response (exec .issynack frameE) = some (0, 0) ∧
    response (exec .issynack frameA) = some (0, 3) := by decide +kernel

theorem test_ispshack :
    response (exec .ispshack frameE) = some (1, 0) ∧ response (exec .ispshack frameG) = some (0, 0) := by
  decide +kernel

theorem test_isfinack :
    response (exec .isfinack frameG) = some (1, 0) ∧ response (exec .isfinack frameF) = some (0, 0) ∧
    response (exec .isfinack frameC) = some (0, 4) := by decide +kernel

/-! ### One step of the machine -/

/-- The first word after reset is executed by the next step: `RDCSR ST` returns 0. -/
theorem test_step_withFetchWord :
    response (step (State.reset.withFetchWord 64 0x0106000000000000)) = some (0, 0) := by decide +kernel

/-- An illegal word with the `op` of ISIP is not executed: SUM keeps its value (R203). -/
theorem test_illegal_keeps_sum :
    response (execWord 0x3000010000000000 { frameA with sum := 7 }) = some (0, 1) ∧
    sumAfter (execWord 0x3000010000000000 { frameA with sum := 7 }) = some 7 := by decide +kernel

/-! ### Witnesses: for every statement with hypotheses, states and operands that meet all of them together -/

/-- Whether a step goes on to a state with a property. -/
def goesOn (P : State → Bool) (o : Host.Outcome State Fault Refusal) : Bool :=
  match o with
  | .next t => P t
  | .fault _ => false
  | .refused _ => false

theorem exists_next {P : State → Bool} {o : Host.Outcome State Fault Refusal} (h : goesOn P o = true) :
    ∃ t, o = .next t ∧ P t = true := by
  cases o with
  | next t => exact ⟨t, rfl, h⟩
  | fault _ => cases h
  | refused _ => cases h

/-- A state of the invariant with LEN at its bound, an exception just raised, and a command at the port. -/
def busy : State :=
  { State.reset with cap := 1522, len := 1522, st := 5, port := [.command 0x1200000000000000, .reset] }

theorem busy_inv : Inv busy := ⟨by decide, by decide, by decide, by decide, by simp [busy, Memory.wf], by simp [busy]⟩

theorem reset_inv : Inv State.reset := by
  have h : State.reset.cap.toNat = Config.bufCap := by
    have := Config.bufCapMinusOne.isLt
    simp [State.reset, Config.bufCap]
    omega
  refine ⟨?_, Nat.zero_le _, by decide, by decide, reset_wf, by simp⟩
  rw [h]
  simp [Config.bufCap]

theorem witness_StepKeepsInv :
    (∃ t, Inv State.reset ∧ step State.reset = .next t) ∧ ∃ t, Inv busy ∧ step busy = .next t :=
  ⟨⟨_, reset_inv, rfl⟩, ⟨_, busy_inv, rfl⟩⟩

theorem witness_RunsNeverStop : Inv State.reset ∧ Inv busy := ⟨reset_inv, busy_inv⟩

theorem witness_EveryWordCompletes :
    frameA.len.toNat ≤ frameA.cap.toNat ∧ (withLen frameA 1522).len.toNat ≤ (withLen frameA 1522).cap.toNat := by
  decide

theorem witness_StepRunsDecoded :
    busy.port = .command 0x1200000000000000 :: [.reset] ∧ decode 0x1200000000000000 = .ok .fin := ⟨rfl, rfl⟩

theorem witness_IdleAndResetSteps :
    State.reset.port = [] ∧ { busy with port := [.reset, .reset] }.port = .reset :: [.reset] ∧
    { busy with port := [.resetDuring 0] }.port = .resetDuring 0 :: [] := ⟨rfl, rfl, rfl⟩

theorem witness_EncodeOfDecode : decode 0x2502000C00000800 = .ok (.stbe 2 12 0x0800) := rfl

theorem witness_IllegalWordsChangeNothing :
    (¬ ∃ i, decode 0 = .ok i) ∧ ¬ ∃ i, decode 0x3000010000000000 = .ok i := by
  constructor <;> (rintro ⟨i, h⟩; cases h)

theorem witness_IllFormedRaisesOperand : (Instr.ldbe 3 0).wellFormed = false := by decide

theorem witness_WellFormedRaisesOperandOnlyForLen :
    (Instr.wrcsr 1 1523).wellFormed = true ∧
    ∃ t, exec (.wrcsr 1 1523) frameA = .next t ∧ (t.st == 2) = true :=
  ⟨by decide, exists_next (by decide +kernel)⟩

theorem witness_WordsPairBytesBigEndian : 1 < (3 + 1) / 2 ∧ 1 < (4 + 1) / 2 ∧ 0 < (1 + 1) / 2 := by decide

theorem exists_length (n : Nat) : ∃ bs : List Byte, bs.length = n :=
  ⟨List.replicate n 0xFF, List.length_replicate⟩

theorem witness_WordSumIsBounded : ∃ bs : List Byte, bs.length ≤ 65535 ∧ bs.length = 65535 := by
  obtain ⟨bs, h⟩ := exists_length 65535
  exact ⟨bs, h.le, h⟩

theorem witness_FoldIsResidueModFFFF : (1 : BitVec 32) ≠ 0 ∧ (0xFFFFFFFF : BitVec 32) ≠ 0 := by decide

theorem witness_AccAddsTheRegion : buffer8.len.toNat ≤ buffer8.cap.toNat := by decide

theorem witness_AccphAddsThePseudoHeader :
    (withLen frameB 33).len.toNat ≤ (withLen frameB 33).cap.toNat ∧
    (withLen frameB 34).len.toNat ≤ (withLen frameB 34).cap.toNat := by decide

/-- Two regions of even length and an odd one at the end, which reaches LEN. -/
theorem witness_AccSequenceIsTheInternetChecksum :
    buffer8.len.toNat ≤ buffer8.cap.toNat ∧ buffer8.sum = 0 ∧
    (∀ r ∈ ([(0, 4), (8, 0), (5, 3)] : List (BitVec 16 × BitVec 16)), r.1.toNat + r.2.toNat ≤ buffer8.len.toNat) ∧
    (∀ r ∈ ([(0, 4), (8, 0), (5, 3)] : List (BitVec 16 × BitVec 16)).dropLast, r.2.toNat % 2 = 0) ∧
    (([(0, 4), (8, 0), (5, 3)] : List (BitVec 16 × BitVec 16)).map
      (fun r => wordSumAt buffer8 r.1.toNat r.2.toNat)).sum < 2 ^ 32 :=
  ⟨by decide, by decide, List.all_iff_forall_prop.mp (by decide), List.all_iff_forall_prop.mp (by decide),
    lt_of_eq_of_lt (b := 0x2DEFA) (by decide +kernel) (by norm_num)⟩

theorem witness_TwoZerosValidate : 0 + 0xFFFF < 2 ^ 32 ∧ (2 ^ 32 - 1 - 0xFFFF) + 0xFFFF < 2 ^ 32 := by norm_num

theorem witness_ResealedHeaderIsValid :
    ∀ s ∈ [frameA, withLen frameA 34, frameH, withLen frameH 38],
      s.len.toNat ≤ s.cap.toNat ∧ s.sum = 0 ∧ numberAt s 12 2 = 0x0800 ∧ ihlFail s = none ∧
        payloadAt s ≤ s.len.toNat := by decide +kernel

theorem witness_FieldAddressFollowsTheLayout :
    frameF.len.toNat ≤ frameF.cap.toNat ∧ (⟨0x5A, .tcpOpt16, .ippay, 20, 2, 15, 0⟩ : FieldRow) ∈ fieldTable := by
  decide

/-- The first and the last line of R128, and ids next to assigned ones that R128 does not print. -/
theorem witness_FieldAddressFollowsTheLayout_table :
    (0x00, .ethDst, .frame, 0, 6, 47, 0, 48) ∈ layout ∧ (0x73, .mqRlen, .tcppay, 1, 1, 7, 0, 8) ∈ layout ∧
    (∀ e ∈ layout, e.1 ≠ 0x03) ∧ ∀ e ∈ layout, e.1 ≠ 0x74 := by
  refine ⟨by decide, by decide, ?_, ?_⟩ <;> exact List.all_iff_forall_prop.mp (by decide)

theorem witness_GetfReturnsTheField : frameE.len.toNat ≤ frameE.cap.toNat := by decide

/-- The field row of TCP_FLAGS. -/
def flagsRow : FieldRow := ⟨0x56, .tcpFlags, .ippay, 12, 2, 5, 0⟩

/-- The field row of MQ_RLEN. -/
def rlenRow : FieldRow := ⟨0x73, .mqRlen, .tcppay, 1, 1, 7, 0⟩

theorem witness_SetfRaisesBeforeItWrites :
    frameC.len.toNat ≤ frameC.cap.toNat ∧ fieldRow 0x74 = none ∧ fieldRow 0x56 = some flagsRow ∧
    2 ^ (flagsRow.hi - flagsRow.lo + 1) ≤ (64 : BitVec 48).toNat ∧
    fieldRow 0x73 = some rlenRow ∧ (rlenRow.name = .mqRlen ∧ 128 ≤ (128 : BitVec 48).toNat) ∧
    ((63 : BitVec 48).toNat < fieldLimit flagsRow ∧ fieldFail frameC flagsRow = some .format) ∧
    (withLen frameE 47).len.toNat ≤ (withLen frameE 47).cap.toNat ∧ fieldFail (withLen frameE 47) flagsRow = none ∧
    (withLen frameE 47).len.toNat <
      baseAt (withLen frameE 47) flagsRow.base + flagsRow.offset + flagsRow.container := by decide +kernel

theorem witness_SetfWritesTheFieldAlone :
    (withLen frameE 48).len.toNat ≤ (withLen frameE 48).cap.toNat ∧ fieldRow 0x56 = some flagsRow ∧
    (63 : BitVec 48).toNat < fieldLimit flagsRow ∧ fieldAddress (withLen frameE 48) flagsRow = .ok 46 ∧
    46 + flagsRow.container ≤ (withLen frameE 48).len.toNat :=
  ⟨by decide, by decide, by decide, by decide +kernel, by decide⟩

theorem witness_OffsReturnsTheStart :
    8 < (9 : BitVec 8).toNat ∧
    (withLen frameA 13).len.toNat ≤ (withLen frameA 13).cap.toNat ∧
    (withLen frameA 14).len.toNat ≤ (withLen frameA 14).cap.toNat := by decide

theorem witness_PlenReturnsTheLength : frameA.len.toNat ≤ frameA.cap.toNat := by decide

theorem witness_LdbeLoadsBigEndian : frameA.len.toNat ≤ frameA.cap.toNat := by decide

theorem witness_StbeRaisesBeforeItWrites :
    frameA.len.toNat ≤ frameA.cap.toNat ∧
    ((3 : BitVec 8) ≠ 1 ∧ (3 : BitVec 8) ≠ 2 ∧ (3 : BitVec 8) ≠ 4) ∧
    2 ^ (8 * (1 : BitVec 8).toNat) ≤ (0x100 : BitVec 32).toNat ∧
    ((0xFFFF : BitVec 32).toNat < 2 ^ (8 * (2 : BitVec 8).toNat) ∧
      frameA.len.toNat < (45 : BitVec 16).toNat + (2 : BitVec 8).toNat) := by decide

theorem witness_StbeStoresBigEndian :
    frameA.len.toNat ≤ frameA.cap.toNat ∧ (0xFFFF : BitVec 32).toNat < 2 ^ (8 * (2 : BitVec 8).toNat) ∧
    (44 : BitVec 16).toNat + (2 : BitVec 8).toNat ≤ frameA.len.toNat := by decide

theorem witness_MixedWidthsSeeOneMemory :
    frameA.len.toNat ≤ frameA.cap.toNat ∧ 2 + (2 : BitVec 8).toNat ≤ (4 : BitVec 8).toNat ∧
    (0x11223344 : BitVec 32).toNat < 2 ^ (8 * (4 : BitVec 8).toNat) ∧
    (42 : BitVec 16).toNat + (4 : BitVec 8).toNat ≤ frameA.len.toNat := by decide

theorem witness_DhcpOperationsNeedTheCookie :
    frameA.len.toNat ≤ frameA.cap.toNat ∧ frameC.len.toNat ≤ frameC.cap.toNat ∧
    cookieFail frameA = some .bounds ∧ cookieFail frameC = some .format ∧ (53 : BitVec 8) ≠ 255 := by decide +kernel

/-- Option 54 behind option 53; the one at the end of the options, whose value reaches the terminator. -/
theorem witness_DhoptFindsTheFirstOption :
    frameD.len.toNat ≤ frameD.cap.toNat ∧ (54 : BitVec 8) ≠ 255 ∧ OptionsBefore frameD [(53, 1)] 285 ∧
    (∀ o ∈ [(53, 1)], o.1 ≠ (54 : BitVec 8).toNat ∧ o.1 ≠ 255) ∧ 285 + 2 ≤ frameD.len.toNat ∧
    byteAt frameD 285 = (54 : BitVec 8).toNat := by
  simp only [OptionsBefore, OptionsAt]
  decide +kernel

/-- The terminator of frame D stands at 315, behind six options; LEN 315 cuts it off, and LEN 286 leaves an option
code without its length byte. -/
theorem witness_OptionScanEnds :
    (50 : BitVec 8) ≠ 255 ∧
    (frameD.len.toNat ≤ frameD.cap.toNat ∧
      OptionsBefore frameD [(53, 1), (54, 4), (51, 4), (1, 4), (3, 4), (6, 4)] 315 ∧ 315 < frameD.len.toNat ∧
      byteAt frameD 315 = 255) ∧
    (OptionsBefore (withLen frameD 315) [(53, 1), (54, 4), (51, 4), (1, 4), (3, 4), (6, 4)] 315 ∧
      (withLen frameD 315).len.toNat ≤ 315) ∧
    (∀ o ∈ [(53, 1), (54, 4), (51, 4), (1, 4), (3, 4), (6, 4)], o.1 ≠ (50 : BitVec 8).toNat ∧ o.1 ≠ 255) ∧
    (OptionsBefore (withLen frameD 286) [(53, 1)] 285 ∧ 285 + 1 = (withLen frameD 286).len.toNat ∧
      byteAt (withLen frameD 286) 285 ≠ 255) := by
  simp only [OptionsBefore, OptionsAt]
  decide +kernel

theorem witness_DhcpTypePredicates :
    frameD.len.toNat ≤ frameD.cap.toNat ∧ OptionsBefore frameD [] 282 ∧ 282 + 2 ≤ frameD.len.toNat ∧
    byteAt frameD 282 = 53 := by
  simp only [OptionsBefore, OptionsAt]
  decide +kernel

theorem witness_IsipChecksTypeAndHeader :
    ∀ n ∈ [13, 14, 15, 33, 34], (withLen frameA n).len.toNat ≤ (withLen frameA n).cap.toNat := by decide

theorem witness_AddressPredicatesCompareDestination :
    ∀ n ∈ [33, 34], (withLen frameA n).len.toNat ≤ (withLen frameA n).cap.toNat := by decide

theorem witness_IsarpreqChecksInOrder :
    ∀ n ∈ [13, 14, 21, 22, 41, 42], (withLen frameC n).len.toNat ≤ (withLen frameC n).cap.toNat := by decide

theorem witness_IspingChecksProtocolAndType :
    ∀ n ∈ [23, 24, 34, 35], (withLen frameA n).len.toNat ≤ (withLen frameA n).cap.toNat := by decide

theorem witness_IsudpValidatesTheDatagram :
    ∀ n ∈ [23, 24, 39, 40, 44, 45], (withLen frameB n).len.toNat ≤ (withLen frameB n).cap.toNat := by decide

theorem witness_IstcpValidatesTheSegment :
    ∀ n ∈ [23, 24, 65, 66], (withLen frameE n).len.toNat ≤ (withLen frameE n).cap.toNat := by decide

theorem witness_FlagPredicatesMatchExactly :
    ∀ n ∈ [14, 15, 47, 48], (withLen frameE n).len.toNat ≤ (withLen frameE n).cap.toNat := by decide

/-- Both address predicates are true of frame D where LOCAL_IP is 255.255.255.255 (R176, clause e). -/
theorem witness_PredicatesExcludeOneAnother :
    Holds .isucast { frameD with localIp := 0xFFFFFFFF } ∧ Holds .isbcast { frameD with localIp := 0xFFFFFFFF } := by
  have h : ∀ i ∈ [Instr.isucast, .isbcast],
      goesOn (fun t => t.res == 1 && t.st == okCode) (exec i { frameD with localIp := 0xFFFFFFFF }) = true := by
    decide +kernel
  constructor
  · obtain ⟨t, h1, h2⟩ := exists_next (h .isucast (by decide))
    exact ⟨t, h1, by simpa using h2⟩
  · obtain ⟨t, h1, h2⟩ := exists_next (h .isbcast (by decide))
    exact ⟨t, h1, by simpa using h2⟩

/-- The view is the same with another SUM, RES, ST and another byte at address LEN. -/
theorem witness_PredicatesDependOnTheViewAlone :
    Instr.isip ∈ predicates ∧
    SameView (withLen frameA 45) { withLen frameA 45 with sum := 7, res := 9, fb := (withLen frameA 45).fb.dropLast } ∧
    ∃ t, exec .isip (withLen frameA 45) = .next t ∧ true = true :=
  ⟨by decide, ⟨rfl, rfl, rfl, rfl, by decide +kernel⟩, exists_next (by decide +kernel)⟩

theorem witness_PredicatesAreIdempotent :
    Instr.isudp ∈ predicates ∧ ∃ t, exec .isudp { frameB with sum := 7 } = .next t ∧ (t.res == 1) = true :=
  ⟨by decide, exists_next (by decide +kernel)⟩

theorem witness_RaiseChangesOnlyResAndSt :
    (∃ t, execWord 0x3000010000000000 frameA = .next t ∧ (t.st != 0) = true) ∧
    (∃ t, execWord 0x3000000000000000 (withLen frameA 33) = .next t ∧ (t.st != 0) = true) ∧
    ∃ t, execWord 0x240100000000002E frameA = .next t ∧ (t.st != 0) = true :=
  ⟨exists_next (by decide +kernel), exists_next (by decide +kernel), exists_next (by decide +kernel)⟩

theorem witness_OperationsRaiseOnlyWhatIsListed :
    (∃ t, exec (.dhopt 50) frameD = .next t ∧ (t.st == 5) = true) ∧
    ∃ t, exec (.ldbe 1 46) frameA = .next t ∧ (t.st == 3) = true :=
  ⟨exists_next (by decide +kernel), exists_next (by decide +kernel)⟩

/-- For every register clause an operation that changes the register. -/
theorem witness_StateIsWrittenOnlyAsListed :
    (∃ t, exec (.wrcsr 1 0) frameA = .next t ∧ (t.len != frameA.len) = true) ∧
    (∃ t, exec (.wrcsr 2 0) frameA = .next t ∧ (t.localMac != frameA.localMac) = true) ∧
    (∃ t, exec (.wrcsr 3 0) frameA = .next t ∧ (t.localIp != frameA.localIp) = true) ∧
    (∃ t, exec (.acc 0 2) frameA = .next t ∧ (t.sum != frameA.sum) = true) ∧
    (∃ t, exec (.accph 0) frameA = .next t ∧ (t.sum != frameA.sum) = true) ∧
    (∃ t, exec .fin { frameA with sum := 7 } = .next t ∧ (t.sum != 7) = true) ∧
    ∃ t, exec .isip { frameA with sum := 7 } = .next t ∧ (t.sum != 7) = true :=
  ⟨exists_next (by decide +kernel), exists_next (by decide +kernel), exists_next (by decide +kernel),
    exists_next (by decide +kernel), exists_next (by decide +kernel), exists_next (by decide +kernel),
    exists_next (by decide +kernel)⟩

/-- For the FB clause: a store that changes a byte. -/
theorem witness_StateIsWrittenOnlyAsListed_fb :
    ∃ t, exec (.stbe 1 0 0x42) (loaded 1 0x41) = .next t ∧ t.fb ≠ (loaded 1 0x41).fb := by
  refine ⟨_, rfl, fun h => ?_⟩
  have h1 := congrArg (fun m => Memory.read 0 m 0) h
  have h2 : Memory.read 0 (Memory.write 0 (loaded 1 0x41).fb 0 0x42) 0 = Memory.read 0 (loaded 1 0x41).fb 0 := h1
  rw [read_write_same] at h2
  revert h2
  decide

theorem witness_BytesFromLenUpAreKept :
    ∃ t, exec (.stbe 1 44 0x42) (withLen frameA 45) = .next t ∧ (withLen frameA 45).len.toNat ≤ 45 :=
  ⟨_, rfl, by decide⟩

theorem witness_BytesFromLenUpAreNeverRead :
    SameBelowLen (withLen frameA 45) { withLen frameA 45 with fb := (withLen frameA 45).fb.dropLast } ∧
    ∃ t, exec (.acc 0 45) (withLen frameA 45) = .next t ∧ true = true :=
  ⟨⟨⟨rfl, rfl, rfl, rfl, by decide +kernel⟩, rfl, rfl, rfl⟩, exists_next (by decide +kernel)⟩

theorem witness_OldResultNeverMatters : Instr.rdcsr 4 ≠ .rdcsr 5 ∧ Instr.rdcsr 4 ≠ .rdcsr 6 := by decide

theorem witness_EmptyFrameRaisesBounds :
    State.reset.len = 0 ∧ State.reset.sum = 0 ∧ Instr.isack ∈ predicates ∧ (fieldRow 0x73).isSome = true ∧
    0 < (0 : BitVec 16).toNat + (1 : BitVec 16).toNat ∧ 0 < (1 : BitVec 16).toNat + (0 : BitVec 16).toNat ∧
    setfFits 0x73 127 = true ∧ 1 ≤ (1 : BitVec 8).toNat ∧ (8 : BitVec 8).toNat ≤ 8 ∧
    (byteCount 4).isSome = true ∧ stbeFits 4 0xFFFFFFFF = true ∧ (254 : BitVec 8) ≠ 255 := by decide

end Sys2Proof.Tests
end

section
/-! PROOFS, 00_scope, part 1: the numbers of FB, and the word that `withFetchWord` issues. -/

namespace Sys2Proof.Machine

open Sys2Proof.Safety

/-- The bytes of a region are those of its first part and then those of the rest. -/
theorem readBytes_add (era : Nat) (m : Memory) (a n k : Nat) :
    Memory.readBytes era m a (n + k) = Memory.readBytes era m a n ++ Memory.readBytes era m (a + n) k := by
  induction n generalizing a with
  | zero => simp [Memory.readBytes]
  | succ n ih =>
    rw [Nat.succ_add]
    simp only [Memory.readBytes, List.cons_append, ih]
    rw [Nat.add_assoc a 1 n, Nat.add_comm 1 n]

theorem beValue_append (bs cs : List Byte) :
    beValue (bs ++ cs) = beValue bs * 256 ^ cs.length + beValue cs := by
  rw [← beValue_foldl, beValue, List.foldl_append, ← beValue]

theorem numberAt_add (s : State) (a n k : Nat) :
    numberAt s a (n + k) = numberAt s a n * 256 ^ k + numberAt s (a + n) k := by
  simp only [numberAt, readBytes_add, beValue_append, readBytes_length]

/-- A whole command word is its own table word. -/
theorem tableWord_toNat (w : CmdWord) : tableWord 64 w.toNat = w := by
  rw [tableWord, Nat.mod_eq_of_lt w.isLt, BitVec.ofNat_toNat, BitVec.setWidth_eq]

/-- A step at a command word executes it, with the word taken off the port (R22). -/
theorem step_command {s : State} {w : CmdWord} {rest : List PortEvent} (h : s.port = .command w :: rest) :
    step s = execWord w { s with port := rest } := by
  unfold step
  rw [h]
  rfl

theorem step_withFetchWord (s : State) (w : CmdWord) : step (s.withFetchWord 64 w.toNat) = execWord w s := by
  have hport : (s.withFetchWord 64 w.toNat).port = .command w :: s.port := by
    rw [State.withFetchWord, tableWord_toNat]
  exact step_command hport

/-- `BUF_CAP` fits the 16 bits of CAP (R8). -/
theorem reset_cap_toNat : State.reset.cap.toNat = Config.bufCap := by
  have := Config.bufCapMinusOne.isLt
  rw [reset_cap, BitVec.toNat_ofNat, Nat.mod_eq_of_lt (by unfold Config.bufCap; omega)]

theorem bufCap_legal : 1 ≤ Config.bufCap ∧ Config.bufCap ≤ 65535 := by
  have := Config.bufCapMinusOne.isLt
  unfold Config.bufCap
  omega

end Sys2Proof.Machine
end

section
/-! PROOFS, 00_scope, part 2: no operation faults or refuses where LEN is at most CAP (R13, R200). -/

namespace Sys2Proof.Machine

open Sys2Proof.Safety

/-- A piece of pseudocode answers a value or raises an exception; it does not stop the machine. -/
def NoFault {α : Type} (x : Eval α) : Prop := ∀ f : Fault, x ≠ .error (.fault f)

/-! ### The rules of the pseudocode -/

theorem NoFault.ok {α : Type} (a : α) : NoFault (.ok a : Eval α) := fun _ h => by cases h

theorem NoFault.raise {α : Type} (e : Exc) : NoFault (raise e : Eval α) := fun _ h => by cases h

theorem NoFault.bind {α β : Type} {x : Eval α} {f : α → Eval β} (hx : NoFault x) (hf : ∀ a, NoFault (f a)) :
    NoFault (x >>= f) := by
  intro g h
  obtain h | ⟨a, -, h⟩ := bind_error_iff.mp h
  · exact hx g h
  · exact hf a g h

theorem NoFault.ite {α : Type} {c : Prop} [Decidable c] {x y : Eval α} (hx : NoFault x) (hy : NoFault y) :
    NoFault (if c then x else y) := by
  split
  · exact hx
  · exact hy

theorem NoFault.raiseIf (c : Prop) [Decidable c] (e : Exc) : NoFault (raiseIf c e) :=
  .ite (.raise e) (.ok ())

/-- `if c: raise E` in front of lines that do not fault. -/
theorem NoFault.guard {β : Type} {c : Prop} [Decidable c] {e : Exc} {f : Unit → Eval β} (hf : NoFault (f ())) :
    NoFault (Machine.raiseIf c e >>= f) :=
  .bind (.raiseIf c e) fun _ => hf

theorem NoFault.orRaise {α : Type} (o : Option α) (e : Exc) : NoFault (orRaise o e) := by
  cases o with
  | none => exact .raise e
  | some a => exact .ok a

theorem NoFault.walked {α : Type} (f : Option Exc) (a : α) : NoFault (walked f a) := by
  cases f with
  | none => exact .ok a
  | some e => exact .raise e

theorem NoFault.map {α β : Type} {x : Eval α} (g : α → β) (hx : NoFault x) : NoFault (x.map g) := by
  intro f h
  cases x with
  | ok a => cases h
  | error e => exact hx f (by simpa [Except.map] using h)

theorem writeCsr_noFault (s : State) (c : Csr) (v : Nat) : NoFault (writeCsr s c v) := by
  cases c with
  | len => exact .ite (.raise _) (.ok _)
  | localMac => exact .ok _
  | localIp => exact .ite (.raise _) (.ok _)
  | cap | sum | res | st => exact .raise _

/-! ### The functions of the rules, in states with LEN at most CAP (R24) -/

section
variable {s : State} (h : s.len.toNat ≤ s.cap.toNat)
include h

theorem checkRange_noFault (a n : Nat) : NoFault (checkRange s a n) := by
  rw [checkRange_eq h]
  exact .ite (.raise _) (.ok _)

theorem readRange_noFault (a n : Nat) : NoFault (readRange s a n) :=
  .bind (checkRange_noFault h a n) fun _ => .ok _

theorem memRead_noFault (a n : Nat) : NoFault (memRead s a n) :=
  .bind (readRange_noFault h a n) fun _ => .ok _

theorem memWrite_noFault (a n v : Nat) : NoFault (memWrite s a n v) :=
  .bind (checkRange_noFault h a n) fun _ => .ok _

theorem pseudoSum_noFault (proto len : Nat) : NoFault (pseudoSum s proto len) :=
  .bind (memRead_noFault h _ _) fun _ => .bind (memRead_noFault h _ _) fun _ =>
    .bind (memRead_noFault h _ _) fun _ => .bind (memRead_noFault h _ _) fun _ => .ok _

theorem ihl_noFault : NoFault (ihl s) := ihl_eq h ▸ .walked _ _

theorem ipp_noFault : NoFault (ipp s) := ipp_eq h ▸ .walked _ _

theorem doff_noFault : NoFault (doff s) := doff_eq h ▸ .walked _ _

theorem tcpp_noFault : NoFault (tcpp s) := tcpp_eq h ▸ .walked _ _

theorem dhb_noFault : NoFault (dhb s) := dhb_eq h ▸ .walked _ _

theorem baseOf_noFault (b : LayerBase) : NoFault (baseOf s b) := by
  cases b with
  | frame | net => exact .ok _
  | ippay => exact ipp_noFault h
  | udppay => exact dhb_noFault h
  | tcppay => exact tcpp_noFault h

theorem optionPresent_noFault (r : FieldRow) : NoFault (optionPresent s r) :=
  .ite (.bind (doff_noFault h) fun _ => .raiseIf _ _) (.ok _)

theorem fieldAddress_noFault (r : FieldRow) : NoFault (fieldAddress s r) :=
  .bind (baseOf_noFault h _) fun _ => .bind (optionPresent_noFault h r) fun _ => .ok _

theorem totalLength_noFault : NoFault (totalLength s) := memRead_noFault h _ _

theorem udpLength_noFault : NoFault (udpLength s) :=
  .bind (ipp_noFault h) fun _ => memRead_noFault h _ _

theorem remainingLength_noFault : NoFault (remainingLength s) :=
  .bind (tcpp_noFault h) fun _ => .bind (memRead_noFault h _ _) fun _ => .guard (.ok _)

theorem layerOffset_noFault (l : Layer) : NoFault (layerOffset s l) := by
  cases l with
  | frame | net => exact .ok _
  | ipopt => exact .bind (ihl_noFault h) fun _ => .ok _
  | ippay => exact ipp_noFault h
  | tcpopt => exact .bind (doff_noFault h) fun _ => .bind (ipp_noFault h) fun _ => .ok _
  | udppay | dhopt => exact .bind (ipp_noFault h) fun _ => .ok _
  | tcppay => exact tcpp_noFault h
  | mqbody => exact .bind (tcpp_noFault h) fun _ => .ok _

theorem layerLength_noFault (l : Layer) : NoFault (layerLength s l) := by
  cases l with
  | frame | net => exact .ok _
  | ipopt => exact .bind (ihl_noFault h) fun _ => .ok _
  | ippay => exact .bind (totalLength_noFault h) fun _ => .bind (ihl_noFault h) fun _ => .ok _
  | tcpopt => exact .bind (doff_noFault h) fun _ => .ok _
  | udppay | dhopt => exact .bind (udpLength_noFault h) fun _ => .ok _
  | tcppay =>
    exact .bind (totalLength_noFault h) fun _ => .bind (ihl_noFault h) fun _ =>
      .bind (doff_noFault h) fun _ => .ok _
  | mqbody => exact .bind (remainingLength_noFault h) fun _ => .ok _

theorem layerStart_noFault (l : Layer) : NoFault (layerStart s l) :=
  .bind (layerOffset_noFault h l) fun _ => .guard (.ok _)

theorem scanOptions_noFault (code n p : Nat) : NoFault (scanOptions s code n p) := by
  induction n generalizing p with
  | zero => exact .raise _
  | succ n ih =>
    exact .bind (memRead_noFault h _ _) fun _ => .guard <| .bind (memRead_noFault h _ _) fun _ =>
      .ite (.guard (.ok _)) (ih _)

theorem findOption_noFault (code : Nat) : NoFault (findOption s code) :=
  .bind (dhb_noFault h) fun _ => .bind (memRead_noFault h _ _) fun _ => .guard (scanOptions_noFault h _ _ _)

theorem segmentValidates_noFault (proto b len : Nat) : NoFault (segmentValidates s proto b len) :=
  .guard <| .bind (pseudoSum_noFault h _ _) fun _ => .bind (readRange_noFault h _ _) fun _ => .ok _

theorem dhcpType_noFault (want : Nat) : NoFault (dhcpType s want) :=
  .bind (dhb_noFault h) fun _ => .bind (findOption_noFault h _) fun _ => .guard <|
    .bind (memRead_noFault h _ _) fun _ => .ite (.ok _) (.bind (memRead_noFault h _ _) fun _ => .ok _)

theorem flagsAre_noFault (pattern : Nat) : NoFault (flagsAre s pattern) :=
  .bind (.bind (ipp_noFault h) fun _ => .bind (memRead_noFault h _ _) fun _ => .ok _) fun _ => .ok _

theorem isIp_noFault : NoFault (isIp s) :=
  .bind (memRead_noFault h _ _) fun _ => .ite (.ok _) <| .bind (ihl_noFault h) fun _ =>
    .guard <| .bind (readRange_noFault h _ _) fun _ => .ok _

theorem isPing_noFault : NoFault (isPing s) :=
  .bind (memRead_noFault h _ _) fun _ => .ite (.ok _) <| .bind (ipp_noFault h) fun _ =>
    .bind (memRead_noFault h _ _) fun _ => .ok _

theorem isUdp_noFault : NoFault (isUdp s) :=
  .bind (memRead_noFault h _ _) fun _ => .ite (.ok _) <| .bind (ipp_noFault h) fun _ =>
    .bind (memRead_noFault h _ _) fun _ => .guard (segmentValidates_noFault h _ _ _)

theorem isTcp_noFault : NoFault (isTcp s) :=
  .bind (memRead_noFault h _ _) fun _ => .ite (.ok _) <| .bind (ihl_noFault h) fun _ =>
    .bind (memRead_noFault h _ _) fun _ => .guard (segmentValidates_noFault h _ _ _)

theorem isUnicast_noFault : NoFault (isUnicast s) := .bind (memRead_noFault h _ _) fun _ => .ok _

theorem isBroadcast_noFault : NoFault (isBroadcast s) := .bind (memRead_noFault h _ _) fun _ => .ok _

theorem isArpRequest_noFault : NoFault (isArpRequest s) :=
  .bind (memRead_noFault h _ _) fun _ => .ite (.ok _) <| .bind (memRead_noFault h _ _) fun _ =>
    .ite (.ok _) <| .bind (memRead_noFault h _ _) fun _ => .ok _

end

/-! ### Operations and words -/

theorem conclude_completes {s : State} {r : Eval (State × Nat)} (hr : NoFault r) : ∃ t, conclude s r = .next t := by
  cases r with
  | ok p => exact ⟨_, rfl⟩
  | error e =>
    cases e with
    | raise e => exact ⟨_, rfl⟩
    | fault f => exact absurd rfl (hr f)

theorem answer_completes {s : State} {r : Eval Nat} (hr : NoFault r) : ∃ t, answer s r = .next t := by
  cases r with
  | ok v => exact ⟨_, rfl⟩
  | error e =>
    cases e with
    | raise e => exact ⟨_, rfl⟩
    | fault f => exact absurd rfl (hr f)

/-- Every operation ends in a next state where LEN is at most CAP (R13, R48, R200). -/
theorem exec_completes {s : State} (h : s.len.toNat ≤ s.cap.toNat) (i : Instr) : ∃ t, exec i s = .next t := by
  have hclear : (clearSum s).len.toNat ≤ (clearSum s).cap.toNat := h
  cases i with
  | rdcsr csr => exact answer_completes (.bind (.orRaise _ _) fun _ => .ok _)
  | wrcsr csr value =>
    exact conclude_completes (.bind (.orRaise _ _) fun _ => .bind (writeCsr_noFault _ _ _) fun _ => .ok _)
  | acc off len => exact conclude_completes (.bind (readRange_noFault h _ _) fun _ => .ok _)
  | accph len =>
    exact conclude_completes
      (.bind (memRead_noFault h _ _) fun _ => .bind (pseudoSum_noFault h _ _) fun _ => .ok _)
  | fin => exact ⟨_, rfl⟩
  | getf fid =>
    exact answer_completes (.bind (.orRaise _ _) fun _ => .bind (fieldAddress_noFault h _) fun _ =>
      .bind (memRead_noFault h _ _) fun _ => .guard (.ok _))
  | setf fid value =>
    exact conclude_completes (.bind (.orRaise _ _) fun _ => .guard <|
      .bind (fieldAddress_noFault h _) fun _ => .bind (memRead_noFault h _ _) fun _ =>
        .bind (memWrite_noFault h _ _ _) fun _ => .ok _)
  | offs lid => exact answer_completes (.bind (.orRaise _ _) fun _ => layerStart_noFault h _)
  | plen lid =>
    exact answer_completes (.bind (.orRaise _ _) fun _ => .bind (layerStart_noFault h _) fun _ =>
      .bind (layerLength_noFault h _) fun _ => .guard <| .guard (.ok _))
  | ldbe n off => exact answer_completes (.bind (.orRaise _ _) fun _ => memRead_noFault h _ _)
  | stbe n off value =>
    exact conclude_completes (.bind (.orRaise _ _) fun _ => .guard <|
      .bind (memWrite_noFault h _ _ _) fun _ => .ok _)
  | dhopt code => exact answer_completes (.guard <| .bind (findOption_noFault h _) fun _ => .ok _)
  | isip => exact answer_completes (.map _ (isIp_noFault hclear))
  | isucast => exact answer_completes (.map _ (isUnicast_noFault h))
  | isbcast => exact answer_completes (.map _ (isBroadcast_noFault h))
  | isarpreq => exact answer_completes (.map _ (isArpRequest_noFault h))
  | isping => exact answer_completes (.map _ (isPing_noFault h))
  | isudp => exact answer_completes (.map _ (isUdp_noFault hclear))
  | istcp => exact answer_completes (.map _ (isTcp_noFault hclear))
  | isoffer | isack => exact answer_completes (.map _ (dhcpType_noFault h _))
  | issynack | ispshack | isfinack => exact answer_completes (.map _ (flagsAre_noFault h _))

theorem execWord_completes {s : State} (h : s.len.toNat ≤ s.cap.toNat) (w : CmdWord) :
    ∃ t, execWord w s = .next t := by
  unfold execWord
  cases decode w with
  | ok i => exact exec_completes h i
  | error _ => exact ⟨_, rfl⟩

theorem takeEvent_completes {s : State} (h : s.len.toNat ≤ s.cap.toNat) (e : PortEvent) :
    ∃ t, takeEvent e s = .next t := by
  cases e with
  | command w => exact execWord_completes h w
  | reset | resetDuring _ => exact ⟨_, rfl⟩

theorem step_completes {s : State} (h : s.len.toNat ≤ s.cap.toNat) : ∃ t, step s = .next t := by
  unfold step
  cases s.port with
  | nil => exact ⟨_, rfl⟩
  | cons e rest => exact takeEvent_completes (s := { s with port := rest }) h e

end Sys2Proof.Machine
end

section
/-! PROOFS, 00_scope, part 3: what one operation can write, and the invariant that every step keeps. -/

namespace Sys2Proof.Machine

/-- What an operation can have written when it ends, RES and ST apart (R20): at most one of these. -/
inductive Writes (s : State) : State → Prop where
  /-- Nothing. -/
  | nothing : Writes s s
  /-- SUM (R27). -/
  | sum (x : BitVec 32) : Writes s { s with sum := x }
  /-- LEN, with a value up to CAP (R191). -/
  | len (v : Nat) (hv : v ≤ s.cap.toNat) : Writes s { s with len := BitVec.ofNat 16 v }
  /-- LOCAL_MAC (R25). -/
  | localMac (x : BitVec 48) : Writes s { s with localMac := x }
  /-- LOCAL_IP (R26). -/
  | localIp (x : BitVec 32) : Writes s { s with localIp := x }
  /-- A run of bytes of FB below LEN (R23). -/
  | bytes (a : Nat) (bs : List Byte) (hlen : a + bs.length ≤ s.len.toNat) :
      Writes s { s with fb := Memory.writeBytes s.era s.fb a bs }

/-- The two ways an operation ends (R13, R203). -/
def Ended (t u : State) : Prop := (∃ v, u = t.returned v) ∨ ∃ e, u = t.raised e

theorem writeCsr_writes {s t : State} {c : Csr} {v : Nat} (h : writeCsr s c v = .ok t) : Writes s t := by
  obtain ⟨-, hv, rfl⟩ | ⟨-, rfl⟩ | ⟨-, -, rfl⟩ := writeCsr_inv h
  · exact .len v hv
  · exact .localMac _
  · exact .localIp _

theorem memWrite_writes {s t : State} {a n v : Nat} (h : memWrite s a n v = .ok t) : Writes s t := by
  obtain ⟨hlen, -, rfl⟩ := memWrite_inv h
  exact .bytes a _ (by rwa [beBytes_length])

theorem answer_ended {s u : State} {r : Eval Nat} (h : answer s r = .next u) : Ended s u := by
  obtain ⟨v, -, rfl⟩ | ⟨e, -, rfl⟩ := answer_next h
  · exact .inl ⟨v, rfl⟩
  · exact .inr ⟨e, rfl⟩

/-- An operation that writes state has written what its pseudocode answers, or has raised and written nothing. -/
theorem conclude_writes {s u : State} {r : Eval (State × Nat)} (hr : ∀ t v, r = .ok (t, v) → Writes s t)
    (h : conclude s r = .next u) : ∃ t, Writes s t ∧ Ended t u := by
  obtain ⟨t, v, ht, rfl⟩ | ⟨e, -, rfl⟩ := conclude_next h
  · exact ⟨t, hr t v ht, .inl ⟨v, rfl⟩⟩
  · exact ⟨s, .nothing, .inr ⟨e, rfl⟩⟩

theorem execWrcsr_writes {s u : State} {csr : BitVec 8} {value : BitVec 48}
    (h : execWrcsr csr value s = .next u) : ∃ t, Writes s t ∧ Ended t u := by
  refine conclude_writes (fun t v ht => ?_) h
  obtain ⟨c, -, ht⟩ := bind_ok_iff.mp ht
  obtain ⟨t', hw, ht⟩ := bind_ok_iff.mp ht
  cases ht
  exact writeCsr_writes hw

theorem execAcc_writes {s u : State} {off len : BitVec 16} (h : execAcc off len s = .next u) :
    ∃ t, Writes s t ∧ Ended t u := by
  refine conclude_writes (fun t v ht => ?_) h
  obtain ⟨bs, -, ht⟩ := bind_ok_iff.mp ht
  cases ht
  exact .sum _

theorem execAccph_writes {s u : State} {len : BitVec 16} (h : execAccph len s = .next u) :
    ∃ t, Writes s t ∧ Ended t u := by
  refine conclude_writes (fun t v ht => ?_) h
  obtain ⟨p, -, ht⟩ := bind_ok_iff.mp ht
  obtain ⟨x, -, ht⟩ := bind_ok_iff.mp ht
  cases ht
  exact .sum _

theorem execFin_writes {s u : State} (h : execFin s = .next u) : ∃ t, Writes s t ∧ Ended t u := by
  refine conclude_writes (fun t v ht => ?_) h
  cases ht
  exact .sum 0

theorem execSetf_writes {s u : State} {fid : BitVec 8} {value : BitVec 48}
    (h : execSetf fid value s = .next u) : ∃ t, Writes s t ∧ Ended t u := by
  refine conclude_writes (fun t v ht => ?_) h
  obtain ⟨r, -, ht⟩ := bind_ok_iff.mp ht
  obtain ⟨_, -, ht⟩ := bind_ok_iff.mp ht
  obtain ⟨a, -, ht⟩ := bind_ok_iff.mp ht
  obtain ⟨c, -, ht⟩ := bind_ok_iff.mp ht
  obtain ⟨t', hw, ht⟩ := bind_ok_iff.mp ht
  cases ht
  exact memWrite_writes hw

theorem execStbe_writes {s u : State} {n : BitVec 8} {off : BitVec 16} {value : BitVec 32}
    (h : execStbe n off value s = .next u) : ∃ t, Writes s t ∧ Ended t u := by
  refine conclude_writes (fun t v ht => ?_) h
  obtain ⟨k, -, ht⟩ := bind_ok_iff.mp ht
  obtain ⟨_, -, ht⟩ := bind_ok_iff.mp ht
  obtain ⟨t', hw, ht⟩ := bind_ok_iff.mp ht
  cases ht
  exact memWrite_writes hw

/-- What an operation can do: it writes at most one thing besides RES and ST, then it returns or raises. -/
theorem exec_writes {i : Instr} {s u : State} (h : exec i s = .next u) : ∃ t, Writes s t ∧ Ended t u := by
  cases i with
  | wrcsr csr value => exact execWrcsr_writes h
  | acc off len => exact execAcc_writes h
  | accph len => exact execAccph_writes h
  | fin => exact execFin_writes h
  | setf fid value => exact execSetf_writes h
  | stbe n off value => exact execStbe_writes h
  | isip | isudp | istcp => exact ⟨clearSum s, .sum 0, answer_ended h⟩
  | rdcsr _ | getf _ | offs _ | plen _ | ldbe _ _ | dhopt _ | isucast | isbcast | isarpreq | isping | isoffer
  | isack | issynack | ispshack | isfinack => exact ⟨s, .nothing, answer_ended h⟩

end Sys2Proof.Machine

namespace Sys2Proof.Safety

open Sys2Proof.Machine

theorem causeCode_le (e : Exc) : (causeCode e).toNat ≤ 5 := by
  cases e <;> decide

/-- A state just reset is one of the invariant, whatever its other fields hold (R33, R230). -/
theorem Inv.of_cleared {s : State} (hcap : 1 ≤ s.cap.toNat) (hlen : s.len = 0) (hres : s.res = 0) (hst : s.st = 0)
    (hfb : s.fb = []) : Inv s where
  cap_pos := hcap
  len_le := by simp [hlen]
  st_legal := by simp [hst]
  res_of_raise _ := hres
  fb_wf := by simp [hfb, Memory.wf]
  fb_below := by simp [hfb]

/-- The invariant does not look at the port. -/
theorem Inv.port {s : State} (h : Inv s) (p : List PortEvent) : Inv { s with port := p } :=
  ⟨h.cap_pos, h.len_le, h.st_legal, h.res_of_raise, h.fb_wf, h.fb_below⟩

theorem Inv.afterReset {s : State} (h : Inv s) : Inv s.afterReset := .of_cleared h.cap_pos rfl rfl rfl rfl

theorem Inv.returned {s : State} (h : Inv s) (v : Nat) : Inv (s.returned v) :=
  ⟨h.cap_pos, h.len_le, Nat.zero_le _, fun hst => absurd rfl hst, h.fb_wf, h.fb_below⟩

theorem Inv.raised {s : State} (h : Inv s) (e : Exc) : Inv (s.raised e) :=
  ⟨h.cap_pos, h.len_le, causeCode_le e, fun _ => rfl, h.fb_wf, h.fb_below⟩

theorem Inv.ended {t u : State} (h : Inv t) (hu : Ended t u) : Inv u := by
  obtain ⟨v, rfl⟩ | ⟨e, rfl⟩ := hu
  · exact h.returned v
  · exact h.raised e

theorem Inv.writes {s t : State} (h : Inv s) (ht : Writes s t) : Inv t := by
  cases ht with
  | nothing => exact h
  | sum | localMac | localIp => exact ⟨h.cap_pos, h.len_le, h.st_legal, h.res_of_raise, h.fb_wf, h.fb_below⟩
  | len v hv =>
    have hle : (BitVec.ofNat 16 v).toNat ≤ s.cap.toNat := (BitVec.toNat_ofNat v 16 ▸ Nat.mod_le _ _).trans hv
    exact ⟨h.cap_pos, hle, h.st_legal, h.res_of_raise, h.fb_wf, h.fb_below⟩
  | bytes a bs hlen =>
    refine ⟨h.cap_pos, h.len_le, h.st_legal, h.res_of_raise, writeBytes_wf a bs h.fb_wf, fun c hc => ?_⟩
    obtain hc | hc := mem_writeBytes hc
    · exact hc.trans_le (hlen.trans h.len_le)
    · exact h.fb_below c hc

theorem Inv.exec {s t : State} {i : Instr} (h : Inv s) (ht : exec i s = .next t) : Inv t := by
  obtain ⟨_, hw, he⟩ := exec_writes ht
  exact (h.writes hw).ended he

theorem Inv.execWord {s t : State} {w : CmdWord} (h : Inv s) (ht : execWord w s = .next t) : Inv t := by
  unfold Machine.execWord at ht
  split at ht
  · exact h.exec ht
  · cases ht
    exact h.raised .illegal

theorem Inv.takeEvent {s t : State} {e : PortEvent} (h : Inv s) (ht : takeEvent e s = .next t) : Inv t := by
  cases e with
  | command w => exact h.execWord ht
  | reset | resetDuring _ =>
    cases ht
    exact h.afterReset

theorem Inv.step {s t : State} (h : Inv s) (ht : step s = .next t) : Inv t := by
  unfold Machine.step at ht
  split at ht
  · cases ht
    exact h
  · exact (h.port _).takeEvent ht

/-! ### Runs -/

theorem run_of_next {k : Nat} {s t : State} (h : step s = .next t) :
    Host.Core.run core (k + 1) s = Host.Core.run core k t := by
  have hcore : core.step s = .next t := h
  simp only [Host.Core.run, hcore]

theorem run_of_fault {k : Nat} {s : State} {f : Fault} (h : step s = .fault f) :
    Host.Core.run core (k + 1) s = .fault f := by
  have hcore : core.step s = .fault f := h
  simp only [Host.Core.run, hcore]

theorem run_of_refused {k : Nat} {s : State} {r : Refusal} (h : step s = .refused r) :
    Host.Core.run core (k + 1) s = .refused r := by
  have hcore : core.step s = .refused r := h
  simp only [Host.Core.run, hcore]

/-- What a state has, if every step from such a state goes on to another one, a run of any length has at its end. -/
theorem run_keeps {P : State → Prop} (hstep : ∀ s, P s → ∃ t, step s = .next t ∧ P t) (k : Nat) (s : State)
    (hs : P s) : ∃ t : State, Host.Core.run Sys2Proof.core k s = .next t ∧ P t := by
  induction k generalizing s with
  | zero => exact ⟨s, rfl, hs⟩
  | succ k ih =>
    obtain ⟨t, hst, ht⟩ := hstep s hs
    rw [run_of_next hst]
    exact ih t ht

end Sys2Proof.Safety
end

section
/-! PROOFS, 00_scope, part 4: execution does not look at the port, so a run over it composes (R51). -/

namespace Sys2Proof.Machine

open Sys2Proof.Safety

/-- `s` with other events waiting. -/
def State.withPort (s : State) (p : List PortEvent) : State := { s with port := p }

/-- The outcome of a step with other events waiting in its next state. -/
def outcomeWithPort (p : List PortEvent) :
    Host.Outcome State Fault Refusal → Host.Outcome State Fault Refusal
  | .next t => .next (t.withPort p)
  | .fault f => .fault f
  | .refused r => .refused r

section
variable (s : State) (p : List PortEvent)

/-- An operation whose pseudocode answers the same whatever waits at the port. -/
theorem answer_withPort {r r' : Eval Nat} (h : r' = r) :
    answer (s.withPort p) r' = outcomeWithPort p (answer s r) := by
  subst h
  cases r' with
  | ok v => rfl
  | error e => cases e <;> rfl

/-- A first line that does not look at the port, in an operation that writes state. -/
theorem conclude_bind_withPort {α : Type} (x : Eval α) {f g : α → Eval (State × Nat)}
    (h : ∀ a, conclude (s.withPort p) (f a) = outcomeWithPort p (conclude s (g a))) :
    conclude (s.withPort p) (x >>= f) = outcomeWithPort p (conclude s (x >>= g)) := by
  cases x with
  | ok a => exact h a
  | error e => cases e <;> rfl

theorem readCsr_withPort (c : Csr) : readCsr (s.withPort p) c = readCsr s c := by
  cases c <;> rfl

/-- The last line of WRCSR, SETF and STBE, after a line that has written to the state. -/
theorem conclude_stored_withPort {x y : Eval State} (v : Nat) (h : y = x.map (·.withPort p)) :
    conclude (s.withPort p) (y >>= fun t => .ok (t, v)) =
      outcomeWithPort p (conclude s (x >>= fun t => .ok (t, v))) := by
  subst h
  cases x with
  | ok t => rfl
  | error e => cases e <;> rfl

theorem writeCsr_withPort (c : Csr) (v : Nat) :
    writeCsr (s.withPort p) c v = (writeCsr s c v).map (·.withPort p) := by
  cases c with
  | len | localIp =>
    simp only [writeCsr, apply_ite (Except.map _)]
    rfl
  | localMac | cap | sum | res | st => rfl

theorem memWrite_withPort (a n v : Nat) :
    memWrite (s.withPort p) a n v = (memWrite s a n v).map (·.withPort p) := by
  have hcheck : checkRange (s.withPort p) a n = checkRange s a n := rfl
  unfold memWrite
  rw [hcheck]
  cases checkRange s a n <;> rfl

theorem scanOptions_withPort (code n a : Nat) : scanOptions (s.withPort p) code n a = scanOptions s code n a := by
  induction n generalizing a with
  | zero => rfl
  | succ n ih =>
    have hread : ∀ b k, memRead (s.withPort p) b k = memRead s b k := fun _ _ => rfl
    simp only [scanOptions, hread, ih]
    rfl

theorem findOption_withPort (code : Nat) : findOption (s.withPort p) code = findOption s code := by
  unfold findOption
  simp only [scanOptions_withPort]
  rfl

theorem dhcpType_withPort (want : Nat) : dhcpType (s.withPort p) want = dhcpType s want := by
  unfold dhcpType
  simp only [findOption_withPort]
  rfl

/-- No operation looks at the port or changes it. -/
theorem exec_withPort (i : Instr) : exec i (s.withPort p) = outcomeWithPort p (exec i s) := by
  cases i with
  | wrcsr csr value =>
    refine conclude_bind_withPort s p (orRaise (csrOfNum csr) .operand) fun c => ?_
    exact conclude_stored_withPort s p value.toNat (writeCsr_withPort s p c value.toNat)
  | acc off len => exact conclude_bind_withPort s p (readRange s off.toNat len.toNat) fun _ => rfl
  | accph len =>
    refine conclude_bind_withPort s p (memRead s 23 1) fun proto => ?_
    exact conclude_bind_withPort s p (pseudoSum s proto len.toNat) fun _ => rfl
  | fin => rfl
  | setf fid value =>
    refine conclude_bind_withPort s p (orRaise (fieldRow fid) .operand) fun r => ?_
    refine conclude_bind_withPort s p (raiseIf (fieldLimit r ≤ value.toNat) .operand) fun _ => ?_
    refine conclude_bind_withPort s p (fieldAddress s r) fun a => ?_
    refine conclude_bind_withPort s p (memRead s a r.container) fun c => ?_
    exact conclude_stored_withPort s p value.toNat (memWrite_withPort s p a r.container _)
  | stbe n off value =>
    refine conclude_bind_withPort s p (orRaise (byteCount n) .operand) fun k => ?_
    refine conclude_bind_withPort s p (raiseIf (2 ^ (8 * k) ≤ value.toNat) .operand) fun _ => ?_
    exact conclude_stored_withPort s p value.toNat (memWrite_withPort s p off.toNat k value.toNat)
  | rdcsr csr => exact answer_withPort s p (by simp only [readCsr_withPort])
  | dhopt code => exact answer_withPort s p (by simp only [findOption_withPort])
  | isoffer | isack => exact answer_withPort s p (by rw [dhcpType_withPort])
  | isip | isudp | istcp => exact answer_withPort (clearSum s) p rfl
  | getf _ | offs _ | plen _ | ldbe _ _ | isucast | isbcast | isarpreq | isping | issynack | ispshack
  | isfinack => exact answer_withPort s p rfl

theorem execWord_withPort (w : CmdWord) : execWord w (s.withPort p) = outcomeWithPort p (execWord w s) := by
  unfold execWord
  cases decode w with
  | ok i => exact exec_withPort s p i
  | error _ => rfl

end

/-- A run over the words at the port executes them one after another (R18, R51). -/
theorem run_eq_runWords (ws : List CmdWord) (s : State) :
    Host.Core.run core ws.length (s.withPort (ws.map .command)) = runWords ws (s.withPort []) := by
  induction ws generalizing s with
  | nil => rfl
  | cons w ws ih =>
    have hstep : step (s.withPort ((w :: ws).map .command)) = outcomeWithPort (ws.map .command) (execWord w s) :=
      (step_command rfl).trans (execWord_withPort s _ w)
    rw [runWords, execWord_withPort, List.length_cons]
    cases hw : execWord w s with
    | next t =>
      rw [hw] at hstep
      exact (run_of_next hstep).trans (ih t)
    | fault f =>
      rw [hw] at hstep
      exact run_of_fault hstep
    | refused r =>
      rw [hw] at hstep
      exact run_of_refused hstep

end Sys2Proof.Machine
end

section
/-! PROOFS, 00_scope, part 5: the statements. -/

namespace Sys2Proof.Scope

open Sys2Proof.Machine Sys2Proof.Safety

/-- Settles O3: an operation writes at most one thing besides RES and ST, and each such write keeps the
invariant. -/
theorem stepKeepsInv : Obligations.StepKeepsInv := fun _ _ hs ht => hs.step ht

/-- Settles O4: LEN at most CAP lets every step go on, and the step keeps the invariant; then by induction on the
number of steps. -/
theorem runsNeverStop : Obligations.RunsNeverStop := by
  refine run_keeps fun s hs => ?_
  obtain ⟨t, ht⟩ := step_completes hs.len_le
  exact ⟨t, ht, hs.step ht⟩

/-- Settles O9, by induction on the list of words: the words still waiting do not matter to the one executed. -/
theorem portRunIsComposition : Obligations.PortRunIsComposition := run_eq_runWords

/-- Settles O36: the region is cut where the first number ends. -/
theorem numbersAreBigEndian : Obligations.NumbersAreBigEndian := fun s a n k =>
  ⟨numberAt_one s a, numberAt_add s a n k⟩

/-- Settles O1: the registers' reset values, BUF_CAP in CAP without loss, and no byte of FB listed. -/
theorem resetStateIsR33 : Obligations.ResetStateIsR33 :=
  ⟨reset_len, reset_localMac, reset_localIp, reset_sum, reset_res, reset_st, reset_cap_toNat, bufCap_legal.1,
    bufCap_legal.2, fun _ => rfl⟩

/-- Settles O2: a cleared state with a legal CAP is one of the invariant. -/
theorem invHoldsAtReset : Obligations.InvHoldsAtReset :=
  .of_cleared (reset_cap_toNat ▸ bufCap_legal.1) reset_len reset_res reset_st reset_fb

/-- Settles O7: the issued word stands at the head of the port, and taking it off gives the state it was issued
in. -/
theorem issuedWordRunsNext : Obligations.IssuedWordRunsNext := step_withFetchWord

end Sys2Proof.Scope
end

section
/-! PROOFS, 10_state, part 1: what the rules read of a state is its view: the bytes of FB below LEN, LEN, CAP,
LOCAL_MAC and LOCAL_IP (R23, R49). Two states of one view answer every rule alike. -/

namespace Sys2Proof.Safety

open Sys2Proof.Machine

theorem SameView.refl (s : State) : SameView s s := ⟨rfl, rfl, rfl, rfl, fun _ _ => rfl⟩

/-- SUM is no part of the view. -/
theorem SameView.clearSum {s s' : State} (h : SameView s s') :
    SameView (Machine.clearSum s) (Machine.clearSum s') :=
  ⟨h.len, h.cap, h.localMac, h.localIp, h.fb⟩

namespace SameView

section
variable {s s' : State} (h : SameView s s')
include h

/-! ### Bounded access -/

theorem checkRange_eq (a n : Nat) : checkRange s a n = checkRange s' a n := by
  simp only [checkRange, h.len, h.cap]

theorem readBytes_eq {a n : Nat} (hn : a + n ≤ s.len.toNat) :
    Memory.readBytes s.era s.fb a n = Memory.readBytes s'.era s'.fb a n :=
  readBytes_congr fun x _ hx => BitVec.eq_of_toNat_eq (h.fb x (by omega))

/-- Every access lies below LEN or reads nothing (R11). -/
theorem readRange_eq (a n : Nat) : readRange s a n = readRange s' a n := by
  unfold readRange
  rw [← h.checkRange_eq]
  cases hc : checkRange s a n with
  | ok u => simp only [ok_bind, h.readBytes_eq (checkRange_inv hc).1]
  | error e => rfl

theorem memRead_eq (a n : Nat) : memRead s a n = memRead s' a n := by
  simp only [memRead, h.readRange_eq]

/-! ### The checksum unit, and where operands lie -/

theorem pseudoSum_eq (proto len : Nat) : pseudoSum s proto len = pseudoSum s' proto len := by
  simp only [pseudoSum, h.memRead_eq]

theorem ihl_eq : ihl s = ihl s' := by simp only [ihl, h.memRead_eq]

theorem ipp_eq : ipp s = ipp s' := by simp only [ipp, h.ihl_eq]

theorem doff_eq : doff s = doff s' := by simp only [doff, h.ipp_eq, h.memRead_eq]

theorem tcpp_eq : tcpp s = tcpp s' := by simp only [tcpp, h.ipp_eq, h.doff_eq]

theorem dhb_eq : dhb s = dhb s' := by simp only [dhb, h.ipp_eq]

theorem baseOf_eq (b : LayerBase) : baseOf s b = baseOf s' b := by
  cases b with
  | frame | net => rfl
  | ippay => exact h.ipp_eq
  | udppay => exact h.dhb_eq
  | tcppay => exact h.tcpp_eq

theorem optionPresent_eq (r : FieldRow) : optionPresent s r = optionPresent s' r := by
  simp only [optionPresent, h.doff_eq]

theorem fieldAddress_eq (r : FieldRow) : fieldAddress s r = fieldAddress s' r := by
  simp only [fieldAddress, h.baseOf_eq, h.optionPresent_eq]

theorem totalLength_eq : totalLength s = totalLength s' := h.memRead_eq _ _

theorem udpLength_eq : udpLength s = udpLength s' := by simp only [udpLength, h.ipp_eq, h.memRead_eq]

theorem remainingLength_eq : remainingLength s = remainingLength s' := by
  simp only [remainingLength, h.tcpp_eq, h.memRead_eq]

theorem layerOffset_eq (l : Layer) : layerOffset s l = layerOffset s' l := by
  cases l with
  | frame | net => rfl
  | ipopt => simp only [layerOffset, h.ihl_eq]
  | ippay | udppay | dhopt => simp only [layerOffset, h.ipp_eq]
  | tcpopt => simp only [layerOffset, h.doff_eq, h.ipp_eq]
  | tcppay | mqbody => simp only [layerOffset, h.tcpp_eq]

theorem layerLength_eq (l : Layer) : layerLength s l = layerLength s' l := by
  cases l with
  | frame | net => simp only [layerLength, h.len]
  | ipopt => simp only [layerLength, h.ihl_eq]
  | ippay => simp only [layerLength, h.totalLength_eq, h.ihl_eq]
  | tcpopt => simp only [layerLength, h.doff_eq]
  | udppay | dhopt => simp only [layerLength, h.udpLength_eq]
  | tcppay => simp only [layerLength, h.totalLength_eq, h.ihl_eq, h.doff_eq]
  | mqbody => simp only [layerLength, h.remainingLength_eq]

theorem layerStart_eq (l : Layer) : layerStart s l = layerStart s' l := by
  simp only [layerStart, h.layerOffset_eq, h.len]

theorem scanOptions_eq (code n p : Nat) : scanOptions s code n p = scanOptions s' code n p := by
  induction n generalizing p with
  | zero => rfl
  | succ n ih => simp only [scanOptions, h.memRead_eq, h.len, ih]

theorem findOption_eq (code : Nat) : findOption s code = findOption s' code := by
  simp only [findOption, h.dhb_eq, h.memRead_eq, h.len, h.scanOptions_eq]

/-! ### The predicates -/

theorem segmentValidates_eq (proto b len : Nat) :
    segmentValidates s proto b len = segmentValidates s' proto b len := by
  simp only [segmentValidates, h.len, h.pseudoSum_eq, h.readRange_eq]

theorem dhcpType_eq (want : Nat) : dhcpType s want = dhcpType s' want := by
  simp only [dhcpType, h.dhb_eq, h.findOption_eq, h.memRead_eq, h.localMac]

theorem flagsAre_eq (pattern : Nat) : flagsAre s pattern = flagsAre s' pattern := by
  simp only [flagsAre, tcpFlags, h.ipp_eq, h.memRead_eq]

theorem isIp_eq : isIp s = isIp s' := by simp only [isIp, h.memRead_eq, h.ihl_eq, h.len, h.readRange_eq]

theorem isPing_eq : isPing s = isPing s' := by simp only [isPing, h.memRead_eq, h.ipp_eq]

theorem isUdp_eq : isUdp s = isUdp s' := by
  simp only [isUdp, h.memRead_eq, h.ipp_eq, h.segmentValidates_eq]

theorem isTcp_eq : isTcp s = isTcp s' := by
  simp only [isTcp, h.memRead_eq, h.ihl_eq, h.segmentValidates_eq]

theorem isUnicast_eq : isUnicast s = isUnicast s' := by simp only [isUnicast, h.memRead_eq, h.localIp]

theorem isBroadcast_eq : isBroadcast s = isBroadcast s' := by simp only [isBroadcast, h.memRead_eq]

theorem isArpRequest_eq : isArpRequest s = isArpRequest s' := by
  simp only [isArpRequest, h.memRead_eq, h.localIp]

end

end SameView

end Sys2Proof.Safety
end

section
/-! PROOFS, 10_state, part 2: what an operation writes is listed for it (R20), and two states of one view with equal
SUM get the same write and the same response. -/

namespace Sys2Proof.Machine

open Sys2Proof.Safety

/-! ### Control register numbers (R66) -/

/-- The number of a control register (R66). -/
def csrNumber : Csr → BitVec 8
  | .cap => 0
  | .len => 1
  | .localMac => 2
  | .localIp => 3
  | .sum => 4
  | .res => 5
  | .st => 6

/-- No two numbers name one register. -/
theorem eq_csrNumber {csr : BitVec 8} {c : Csr} (h : csrOfNum csr = some c) : csr = csrNumber c := by
  unfold csrOfNum at h
  split at h <;> cases h <;> exact BitVec.eq_of_toNat_eq ‹_›

theorem orRaise_inv {α : Type} {o : Option α} {e : Exc} {a : α} (h : orRaise o e = .ok a) : o = some a := by
  cases o with
  | none => cases h
  | some b => cases h; rfl

/-! ### Writes as data -/

/-- What an operation writes besides RES and ST: at most one of these. -/
inductive Write where
  /-- Nothing. -/
  | nothing
  /-- LEN (R24). -/
  | len (x : BitVec 16)
  /-- LOCAL_MAC (R25). -/
  | localMac (x : BitVec 48)
  /-- LOCAL_IP (R26). -/
  | localIp (x : BitVec 32)
  /-- SUM (R27). -/
  | sum (x : BitVec 32)
  /-- A run of bytes of FB (R23). -/
  | bytes (a : Nat) (bs : List Byte)

/-- The state with the write done. -/
def Write.on : Write → State → State
  | .nothing, s => s
  | .len x, s => { s with len := x }
  | .localMac x, s => { s with localMac := x }
  | .localIp x, s => { s with localIp := x }
  | .sum x, s => { s with sum := x }
  | .bytes a bs, s => { s with fb := Memory.writeBytes s.era s.fb a bs }

/-- The operations that may do a write: the written-by column of R20. -/
def Write.ListedFor : Write → Instr → Prop
  | .nothing, _ => True
  | .len _, i => ∃ value, i = .wrcsr 1 value
  | .localMac _, i => ∃ value, i = .wrcsr 2 value
  | .localIp _, i => ∃ value, i = .wrcsr 3 value
  | .sum _, i =>
    (∃ off len, i = .acc off len) ∨ (∃ len, i = .accph len) ∨ i = .fin ∨ validating i = true
  | .bytes _ _, i => (∃ fid value, i = .setf fid value) ∨ ∃ n off value, i = .stbe n off value

/-- A write neither looks at RES and ST nor changes them. -/
theorem Write.on_withResponse (w : Write) (s : State) (r : BitVec 64) (c : BitVec 4) :
    w.on { s with res := r, st := c } = { w.on s with res := r, st := c } := by
  cases w <;> rfl

/-- The outcomes of `i` from `s` and from `s'` are alike: one write that is listed for `i`, and one response; or the
same fault. -/
inductive Alike (i : Instr) (s s' : State) :
    Host.Outcome State Fault Refusal → Host.Outcome State Fault Refusal → Prop where
  /-- Both go on. -/
  | next {w : Write} (hw : w.ListedFor i) (r : BitVec 64) (c : BitVec 4) :
      Alike i s s' (.next { w.on s with res := r, st := c }) (.next { w.on s' with res := r, st := c })
  /-- Both stop. -/
  | fault (f : Fault) : Alike i s s' (.fault f) (.fault f)

namespace Alike

variable {i : Instr} {s s' : State}

/-! ### The ways an operation ends -/

theorem returned {w : Write} (hw : w.ListedFor i) (v : Nat) :
    Alike i s s' (.next ((w.on s).returned v)) (.next ((w.on s').returned v)) := .next hw _ _

theorem raised {w : Write} (hw : w.ListedFor i) (e : Exc) :
    Alike i s s' (.next ((w.on s).raised e)) (.next ((w.on s').raised e)) := .next hw _ _

/-- An exception that has written nothing, or a fault. -/
theorem stopped (e : Stop) : Alike i s s' (conclude s (.error e)) (conclude s' (.error e)) := by
  cases e with
  | raise e => exact raised (w := .nothing) trivial e
  | fault f => exact .fault f

/-- An operation whose only write is done whatever its pseudocode answers. -/
theorem answered (w : Write) (hw : w.ListedFor i) {r r' : Eval Nat} (hr : r = r') :
    Alike i s s' (answer (w.on s) r) (answer (w.on s') r') := by
  subst hr
  match r with
  | .ok v => exact returned hw v
  | .error (.raise e) => exact raised hw e
  | .error (.fault f) => exact .fault f

/-- The predicates: the same truth value, or the same stop. -/
theorem judged (w : Write) (hw : w.ListedFor i) {b b' : Eval Bool} (hb : b = b') :
    Alike i s s' (answer (w.on s) (b.map verdict)) (answer (w.on s') (b'.map verdict)) :=
  answered w hw (congrArg (Except.map verdict) hb)

/-- A line of pseudocode that writes nothing and comes to the same in both states. -/
theorem line {α : Type} {x x' : Eval α} (hx : x = x') {f f' : α → Eval (State × Nat)}
    (hf : ∀ a, x = .ok a → Alike i s s' (conclude s (f a)) (conclude s' (f' a))) :
    Alike i s s' (conclude s (x >>= f)) (conclude s' (x' >>= f')) := by
  subst hx
  cases x with
  | ok a => exact hf a rfl
  | error e => exact stopped e

/-! ### The lines that write -/

/-- The last lines of WRCSR: the register of that number gets the value, or the value is refused. -/
theorem wroteCsr (hcap : s.cap = s'.cap) (c : Csr) (value : BitVec 48) :
    Alike (.wrcsr (csrNumber c) value) s s'
      (conclude s (writeCsr s c value.toNat >>= fun t => .ok (t, value.toNat)))
      (conclude s' (writeCsr s' c value.toNat >>= fun t => .ok (t, value.toNat))) := by
  cases c with
  | len =>
    by_cases hv : s.cap.toNat < value.toNat
    · simp only [writeCsr, if_pos hv, if_pos (hcap ▸ hv)]
      exact stopped _
    · simp only [writeCsr, if_neg hv, if_neg (hcap ▸ hv)]
      exact returned (w := .len _) ⟨value, rfl⟩ _
  | localMac => exact returned (w := .localMac _) ⟨value, rfl⟩ _
  | localIp =>
    simp only [writeCsr]
    split
    · exact stopped _
    · exact returned (w := .localIp _) ⟨value, rfl⟩ _
  | cap | sum | res | st => exact stopped _

/-- The last lines of SETF and STBE. -/
theorem stored (h : SameView s s') (a n v x : Nat) (hw : (Write.bytes a (beBytes n v)).ListedFor i) :
    Alike i s s' (conclude s (memWrite s a n v >>= fun t => .ok (t, x)))
      (conclude s' (memWrite s' a n v >>= fun t => .ok (t, x))) := by
  unfold memWrite
  rw [← h.checkRange_eq]
  cases checkRange s a n with
  | ok u => exact returned hw x
  | error e => exact stopped e

end Alike

/-! ### All operations -/

/-- RDCSR reads a register that the two states agree on. -/
theorem readCsr_sameView {s s' : State} (h : SameView s s') (hsum : s.sum = s'.sum) {c : Csr}
    (hres : c = .res → s.res = s'.res) (hst : c = .st → s.st = s'.st) : readCsr s c = readCsr s' c := by
  cases c with
  | cap => exact congrArg BitVec.toNat h.cap
  | len => exact congrArg BitVec.toNat h.len
  | localMac => exact congrArg BitVec.toNat h.localMac
  | localIp => exact congrArg BitVec.toNat h.localIp
  | sum => exact congrArg BitVec.toNat hsum
  | res => exact congrArg BitVec.toNat (hres rfl)
  | st => exact congrArg BitVec.toNat (hst rfl)

/-- The outcome of an operation is fixed by the view and SUM, for RDCSR RES and RDCSR ST also by that register, and
it writes nothing that is not listed for it. -/
theorem exec_alike {i : Instr} {s s' : State} (h : SameView s s') (hsum : s.sum = s'.sum)
    (hres : i = .rdcsr 5 → s.res = s'.res) (hst : i = .rdcsr 6 → s.st = s'.st) :
    Alike i s s' (exec i s) (exec i s') := by
  cases i with
  | rdcsr csr =>
    refine .answered .nothing trivial ?_
    cases hc : csrOfNum csr with
    | none => rfl
    | some c =>
      obtain rfl := eq_csrNumber hc
      rw [orRaise_some, ok_bind, ok_bind, readCsr_sameView h hsum]
      · rintro rfl
        exact hres rfl
      · rintro rfl
        exact hst rfl
  | wrcsr csr value =>
    refine .line (rfl : orRaise (csrOfNum csr) .operand = _) fun c hc => ?_
    obtain rfl := eq_csrNumber (orRaise_inv hc)
    exact .wroteCsr h.cap c value
  | acc off len =>
    refine .line (h.readRange_eq off.toNat len.toNat) fun bs _ => ?_
    simp only [addToSum, ← hsum]
    exact .returned (w := .sum _) (.inl ⟨off, len, rfl⟩) _
  | accph len =>
    refine .line (h.memRead_eq 23 1) fun proto _ => .line (h.pseudoSum_eq proto len.toNat) fun t _ => ?_
    simp only [addToSum, ← hsum]
    exact .returned (w := .sum _) (.inr (.inl ⟨len, rfl⟩)) _
  | fin =>
    simp only [exec, execFin, ← hsum]
    exact .returned (w := .sum 0) (.inr (.inr (.inl rfl))) _
  | setf fid value =>
    refine .line (rfl : orRaise (fieldRow fid) .operand = _) fun r _ => ?_
    refine .line (rfl : raiseIf (fieldLimit r ≤ value.toNat) .operand = _) fun _ _ => ?_
    refine .line (h.fieldAddress_eq r) fun a _ => .line (h.memRead_eq a r.container) fun c _ => ?_
    exact .stored h a r.container _ _ (.inl ⟨fid, value, rfl⟩)
  | stbe n off value =>
    refine .line (rfl : orRaise (byteCount n) .operand = _) fun k _ => ?_
    refine .line (rfl : raiseIf (2 ^ (8 * k) ≤ value.toNat) .operand = _) fun _ _ => ?_
    exact .stored h off.toNat k _ _ (.inr ⟨n, off, value, rfl⟩)
  | getf fid => exact .answered .nothing trivial (by simp only [h.fieldAddress_eq, h.memRead_eq])
  | offs lid => exact .answered .nothing trivial (by simp only [h.layerStart_eq])
  | plen lid => exact .answered .nothing trivial (by simp only [h.layerStart_eq, h.layerLength_eq, h.len])
  | ldbe n off => exact .answered .nothing trivial (by simp only [h.memRead_eq])
  | dhopt code => exact .answered .nothing trivial (by simp only [h.findOption_eq])
  | isip => exact .judged (.sum 0) (.inr (.inr (.inr rfl))) h.clearSum.isIp_eq
  | isudp => exact .judged (.sum 0) (.inr (.inr (.inr rfl))) h.clearSum.isUdp_eq
  | istcp => exact .judged (.sum 0) (.inr (.inr (.inr rfl))) h.clearSum.isTcp_eq
  | isucast => exact .judged .nothing trivial h.isUnicast_eq
  | isbcast => exact .judged .nothing trivial h.isBroadcast_eq
  | isarpreq => exact .judged .nothing trivial h.isArpRequest_eq
  | isping => exact .judged .nothing trivial h.isPing_eq
  | isoffer | isack => exact .judged .nothing trivial (h.dhcpType_eq _)
  | issynack | ispshack | isfinack => exact .judged .nothing trivial (h.flagsAre_eq _)

/-- An operation that goes on from `s` goes on alike from `s'`. -/
theorem Alike.of_next {i : Instr} {s s' t : State} {o : Host.Outcome State Fault Refusal}
    (h : Alike i s s' (.next t) o) :
    ∃ w : Write, w.ListedFor i ∧ ∃ r c, t = { w.on s with res := r, st := c } ∧
      o = .next { w.on s' with res := r, st := c } := by
  cases h with
  | next hw r c => exact ⟨_, hw, r, c, rfl, rfl⟩

/-- The response of an operation overwrites RES and ST of the one before. -/
theorem Alike.eq_of_response {i : Instr} {s : State} {r : BitVec 64} {c : BitVec 4}
    {o o' : Host.Outcome State Fault Refusal} (h : Alike i { s with res := r, st := c } s o o') : o = o' := by
  cases h with
  | @next w _ _ _ => rw [w.on_withResponse]
  | fault f => rfl

/-- What one operation does to the state: a write that is listed for it, and a response. -/
theorem exec_writes_listed {i : Instr} {s t : State} (h : exec i s = .next t) :
    ∃ w : Write, w.ListedFor i ∧ ∃ r c, t = { w.on s with res := r, st := c } := by
  have halike := exec_alike (i := i) (.refl s) rfl (fun _ => rfl) (fun _ => rfl)
  rw [h] at halike
  obtain ⟨w, hw, r, c, ht, -⟩ := halike.of_next
  exact ⟨w, hw, r, c, ht⟩

end Sys2Proof.Machine
end

section
/-! PROOFS, 10_state, part 3: the bytes of FB that a write reaches, and the step at a word that decodes. -/

namespace Sys2Proof.Machine

open Sys2Proof.Safety

/-- The end of an operation changes no byte of FB (R203, R13). -/
theorem Ended.byteAt_eq {t u : State} (h : Ended t u) (a : Nat) : byteAt u a = byteAt t a := by
  obtain ⟨v, rfl⟩ | ⟨e, rfl⟩ := h <;> rfl

/-- What an operation can write lies below LEN. -/
theorem Writes.byteAt_eq {s t : State} (h : Writes s t) {a : Nat} (ha : s.len.toNat ≤ a) :
    byteAt t a = byteAt s a := by
  cases h with
  | nothing | sum | len | localMac | localIp => rfl
  | bytes b bs hlen => exact congrArg BitVec.toNat (read_writeBytes_outside _ _ (.inr (hlen.trans ha)))

/-- One write keeps equal bytes equal, whatever unwritten bytes hold. -/
theorem Write.byteAt_on_eq {s s' : State} {a : Nat} (h : byteAt s a = byteAt s' a) (w : Write) :
    byteAt (w.on s) a = byteAt (w.on s') a := by
  cases w with
  | nothing | sum | len | localMac | localIp => exact h
  | bytes b bs =>
    simp only [byteAt, Write.on, read_writeBytes]
    split
    · rfl
    · exact h

/-- One write keeps two states that agree below LEN in agreement on the registers. -/
theorem Write.registers_on_eq {s s' : State} (h : SameBelowLen s s') (w : Write) :
    (w.on s').len = (w.on s).len ∧ (w.on s').localMac = (w.on s).localMac ∧
      (w.on s').localIp = (w.on s).localIp ∧ (w.on s').sum = (w.on s).sum ∧ (w.on s').cap = (w.on s).cap := by
  cases w with
  | nothing | bytes => exact ⟨h.len.symm, h.localMac.symm, h.localIp.symm, h.sum.symm, h.cap.symm⟩
  | len => exact ⟨rfl, h.localMac.symm, h.localIp.symm, h.sum.symm, h.cap.symm⟩
  | localMac => exact ⟨h.len.symm, rfl, h.localIp.symm, h.sum.symm, h.cap.symm⟩
  | localIp => exact ⟨h.len.symm, h.localMac.symm, rfl, h.sum.symm, h.cap.symm⟩
  | sum => exact ⟨h.len.symm, h.localMac.symm, h.localIp.symm, rfl, h.cap.symm⟩

theorem execWord_of_decode {w : CmdWord} {i : Instr} (h : decode w = .ok i) (s : State) :
    execWord w s = exec i s := by
  unfold execWord
  rw [h]

end Sys2Proof.Machine
end

section
/-! PROOFS, 10_state, part 4: the statements. -/

namespace Sys2Proof.StateRules

open Sys2Proof.Machine Sys2Proof.Safety

/-- Settles O6: the step takes the word off the port and executes it, which is to execute what it decodes to. -/
theorem stepRunsDecoded : Obligations.StepRunsDecoded := fun _ _ _ _ hport hdec =>
  (step_command hport).trans (execWord_of_decode hdec _)

/-- Settles O56: the one write of an operation is listed for it, and every other piece of state is as it was. -/
theorem stateIsWrittenOnlyAsListed : Obligations.StateIsWrittenOnlyAsListed := by
  intro i s t ht
  obtain ⟨w, hw, r, c, rfl⟩ := exec_writes_listed ht
  cases w with
  | nothing => exact ⟨rfl, rfl, rfl, absurd rfl, absurd rfl, absurd rfl, absurd rfl, absurd rfl⟩
  | len => exact ⟨rfl, rfl, rfl, fun _ => hw, absurd rfl, absurd rfl, absurd rfl, absurd rfl⟩
  | localMac => exact ⟨rfl, rfl, rfl, absurd rfl, fun _ => hw, absurd rfl, absurd rfl, absurd rfl⟩
  | localIp => exact ⟨rfl, rfl, rfl, absurd rfl, absurd rfl, fun _ => hw, absurd rfl, absurd rfl⟩
  | sum => exact ⟨rfl, rfl, rfl, absurd rfl, absurd rfl, absurd rfl, fun _ => hw, absurd rfl⟩
  | bytes => exact ⟨rfl, rfl, rfl, absurd rfl, absurd rfl, absurd rfl, absurd rfl, fun _ => hw⟩

/-- Settles O57: a store is bounded by LEN, and nothing else writes FB. -/
theorem bytesFromLenUpAreKept : Obligations.BytesFromLenUpAreKept := by
  intro i s u a hu ha
  obtain ⟨t, hw, he⟩ := exec_writes hu
  exact (he.byteAt_eq a).trans (hw.byteAt_eq ha)

/-- Settles O58: both states get the same write and the same response, since no rule reads a byte at or above
LEN. -/
theorem bytesFromLenUpAreNeverRead : Obligations.BytesFromLenUpAreNeverRead := by
  intro i s s' t h ht
  have halike := exec_alike (i := i) h.toSameView h.sum (fun _ => h.res) (fun _ => h.st)
  rw [ht] at halike
  obtain ⟨w, -, r, c, rfl, ht'⟩ := halike.of_next
  obtain ⟨hlen, hmac, hip, hsum, hcap⟩ := w.registers_on_eq h
  exact ⟨_, ht', hlen, hmac, hip, hsum, rfl, rfl, hcap, fun a ha => (w.byteAt_on_eq (h.fb a ha)).symm⟩

/-- Settles O59: RES and ST are no part of the view, and the response of an operation overwrites both. -/
theorem oldResultNeverMatters : Obligations.OldResultNeverMatters := by
  intro i s r c hres hst
  have hview : SameView { s with res := r, st := c } s := ⟨rfl, rfl, rfl, rfl, fun _ _ => rfl⟩
  exact (exec_alike hview rfl (absurd · hres) (absurd · hst)).eq_of_response

end Sys2Proof.StateRules
end

section
/-! PROOFS, 20_memory, part 1: the state after a store, what a later read of any width sees of it (R41, R43), and the
operations SETF, STBE and LDBE where they return. -/

namespace Sys2Proof.Machine

open Sys2Proof.Safety

/-! ### Numbers inside numbers -/

/-- The number of a part of a region is cut out of the number of the whole region (R41, R43). -/
theorem numberAt_part (s : State) (a j k m : Nat) :
    numberAt s (a + j) k = numberAt s a (j + k + m) / 256 ^ m % 256 ^ k := by
  have hm := numberAt_lt s (a + (j + k)) m
  have hk := numberAt_lt s (a + j) k
  rw [numberAt_add s a (j + k) m, numberAt_add s a j k, Nat.mul_comm _ (256 ^ m), Nat.mul_add_div (by positivity),
    Nat.div_eq_of_lt hm, Nat.add_zero, Nat.mul_comm, Nat.mul_add_mod, Nat.mod_eq_of_lt hk]

/-! ### The state after a store -/

/-- `s` with the `n` bytes of `v` stored from address `a`. -/
def State.stored (s : State) (a n v : Nat) : State :=
  { s with fb := Memory.writeBytes s.era s.fb a (beBytes n v) }

section
variable {s : State} {a n v : Nat}

/-- `MemWrite` below LEN stores, and does nothing else (R11). -/
theorem memWrite_stored (h : s.len.toNat ≤ s.cap.toNat) (hlen : a + n ≤ s.len.toNat) :
    memWrite s a n v = .ok (s.stored a n v) := by
  rw [memWrite_eq h, if_neg (Nat.not_lt.mpr hlen)]
  rfl

/-- `MemRead` below LEN gives the number that stands there (R11). -/
theorem memRead_below (h : s.len.toNat ≤ s.cap.toNat) (hlen : a + n ≤ s.len.toNat) :
    memRead s a n = .ok (numberAt s a n) := by
  rw [memRead_eq h, if_neg (Nat.not_lt.mpr hlen)]

theorem byteAt_stored_outside {x : Nat} (hx : x < a ∨ a + n ≤ x) : byteAt (s.stored a n v) x = byteAt s x :=
  congrArg BitVec.toNat (read_writeBytes_outside _ _ (by rwa [beBytes_length]))

theorem numberAt_stored (hv : v < 256 ^ n) : numberAt (s.stored a n v) a n = v := by
  have hread := readBytes_writeBytes s.era s.fb a (beBytes n v)
  rw [beBytes_length] at hread
  rw [numberAt, State.stored, hread, beValue_beBytes, Nat.mod_eq_of_lt hv]

/-- What stands inside a stored number is the corresponding bytes of it (R43). -/
theorem numberAt_stored_part {j k : Nat} (hv : v < 256 ^ n) (hjk : j + k ≤ n) :
    numberAt (s.stored a n v) (a + j) k = v / 256 ^ (n - j - k) % 256 ^ k := by
  have hn : j + k + (n - j - k) = n := by omega
  rw [numberAt_part _ a j k (n - j - k), hn, numberAt_stored hv]

end

/-! ### The operations where they return -/

/-- A return changes no number of FB (R13). -/
@[simp] theorem numberAt_returned (s : State) (v a n : Nat) : numberAt (s.returned v) a n = numberAt s a n := rfl

/-- RES holds any number of up to 8 bytes whole (R28). -/
theorem returned_numberAt_res {s t : State} {a n : Nat} (hn : n ≤ 8) :
    (s.returned (numberAt t a n)).res.toNat = numberAt t a n := by
  have hlt : numberAt t a n < 2 ^ 64 := (numberAt_lt t a n).trans_le (Nat.pow_le_pow_right (by decide) hn)
  rw [returned_res, BitVec.toNat_ofNat, Nat.mod_eq_of_lt hlt]

theorem byteCount_of_legal {n : BitVec 8} (hn : n = 1 ∨ n = 2 ∨ n = 4) : byteCount n = some n.toNat := by
  obtain rfl | rfl | rfl := hn <;> rfl

/-- No field takes a value wider than its slice (R128). -/
theorem fieldLimit_le_width : ∀ r ∈ fieldTable, fieldLimit r ≤ 2 ^ (r.hi - r.lo + 1) := by decide

theorem exec_stbe_stores {s : State} {n : BitVec 8} {off : BitVec 16} {value : BitVec 32}
    (h : s.len.toNat ≤ s.cap.toNat) (hn : n = 1 ∨ n = 2 ∨ n = 4) (hv : value.toNat < 2 ^ (8 * n.toNat))
    (hlen : off.toNat + n.toNat ≤ s.len.toNat) :
    exec (.stbe n off value) s = .next ((s.stored off.toNat n.toNat value.toNat).returned value.toNat) := by
  simp only [exec, execStbe, byteCount_of_legal hn, orRaise_some, ok_bind, raiseIf_bind,
    if_neg (Nat.not_le.mpr hv), memWrite_stored h hlen, conclude_ok]

theorem exec_ldbe_loads {s : State} {n : BitVec 8} {off : BitVec 16} (h : s.len.toNat ≤ s.cap.toNat)
    (hn : n = 1 ∨ n = 2 ∨ n = 4) (hlen : off.toNat + n.toNat ≤ s.len.toNat) :
    exec (.ldbe n off) s = .next (s.returned (numberAt s off.toNat n.toNat)) := by
  simp only [exec, execLdbe, byteCount_of_legal hn, orRaise_some, ok_bind, memRead_below h hlen, answer_ok]

theorem exec_setf_stores {s : State} {fid : BitVec 8} {value : BitVec 48} {r : FieldRow} {a : Nat}
    (h : s.len.toNat ≤ s.cap.toNat) (hr : fieldRow fid = some r) (hv : value.toNat < fieldLimit r)
    (ha : fieldAddress s r = .ok a) (hlen : a + r.container ≤ s.len.toNat) :
    exec (.setf fid value) s = .next ((s.stored a r.container
      (putSlice (numberAt s a r.container) r.hi r.lo value.toNat)).returned value.toNat) := by
  simp only [exec, execSetf, hr, orRaise_some, ok_bind, raiseIf_bind, if_neg (Nat.not_le.mpr hv), ha,
    memRead_below h hlen, memWrite_stored h hlen, conclude_ok]

end Sys2Proof.Machine
end

section
/-! PROOFS, 20_memory, part 2: the end of an operation keeps the view, so that a predicate asked again gets the same
answer (R47, R175). -/

namespace Sys2Proof.Machine

open Sys2Proof.Safety

/-- RES and ST are no part of the view. -/
theorem Ended.sameView {s t : State} (h : Ended s t) : SameView s t := by
  obtain ⟨v, rfl⟩ | ⟨e, rfl⟩ := h <;> exact ⟨rfl, rfl, rfl, rfl, fun _ _ => rfl⟩

/-- Answering once more with the same value, or the same raise, changes nothing. -/
theorem answer_again {s t : State} {r : Eval Nat} (h : answer s r = .next t) : answer t r = .next t := by
  obtain ⟨v, rfl, rfl⟩ | ⟨e, rfl, rfl⟩ := answer_next h <;> rfl

section
variable {s t : State} {judge : State → Eval Bool} (hview : ∀ {s s' : State}, SameView s s' → judge s = judge s')
include hview

/-- A predicate that looks at the view alone finds it unchanged on the state it left. -/
theorem judge_again (h : answer s ((judge s).map verdict) = .next t) :
    answer t ((judge t).map verdict) = .next t := by
  rw [← hview (answer_ended h).sameView]
  exact answer_again h

/-- A validating predicate leaves SUM at 0, where clearing it again does nothing. -/
theorem judge_cleared_again (h : answer (clearSum s) ((judge (clearSum s)).map verdict) = .next t) :
    answer (clearSum t) ((judge (clearSum t)).map verdict) = .next t := by
  have hclear : clearSum t = t := by
    obtain ⟨v, rfl⟩ | ⟨e, rfl⟩ := answer_ended h <;> rfl
  rw [hclear]
  exact judge_again hview h

end

end Sys2Proof.Machine
end

section
/-! PROOFS, 20_memory, part 3: the statements. -/

namespace Sys2Proof.MemoryRules

open Sys2Proof.Machine Sys2Proof.Safety

/-- Settles O32: SETF stores the container as it was with the slice replaced, which fits the container's bytes. -/
theorem setfWritesTheFieldAlone : Obligations.SetfWritesTheFieldAlone := by
  intro fid value s r a h hr hv ha hlen
  obtain ⟨hrow, -⟩ := fieldRow_inv hr
  obtain ⟨hlo, hhi, -⟩ := fieldTable_shape r hrow
  have hfits : value.toNat < 2 ^ (r.hi - r.lo + 1) := hv.trans_le (fieldLimit_le_width r hrow)
  have hnumber : numberAt (s.stored a r.container (putSlice (numberAt s a r.container) r.hi r.lo value.toNat))
      a r.container = putSlice (numberAt s a r.container) r.hi r.lo value.toNat :=
    numberAt_stored (putSlice_lt hlo hfits hhi (numberAt_lt s a r.container))
  refine ⟨_, exec_setf_stores h hr hv ha hlen, BitVec.ofNat_toNat 64 value, rfl, ?field, ?above, ?below,
    fun x hx => byteAt_stored_outside hx, rfl, rfl, rfl, rfl, rfl, rfl, rfl⟩
  all_goals rw [numberAt_returned, hnumber]
  case field => exact slice_putSlice hlo hfits
  case above => exact putSlice_div hlo hfits
  case below => exact putSlice_mod hlo

/-- Settles O39: the load returns a part of the number that STBE stored; its address does not wrap, being below
LEN. -/
theorem mixedWidthsSeeOneMemory : Obligations.MixedWidthsSeeOneMemory := by
  intro n k off j value s h hn hk hjk hv hlen
  have hkrange : 1 ≤ k.toNat ∧ k.toNat ≤ 8 := by obtain rfl | rfl | rfl := hk <;> decide
  have haddr : (BitVec.ofNat 16 (off.toNat + j)).toNat = off.toNat + j := by
    rw [BitVec.toNat_ofNat, Nat.mod_eq_of_lt (by omega)]
  have hload : (BitVec.ofNat 16 (off.toNat + j)).toNat + k.toNat ≤ s.len.toNat := by omega
  have hbytes : value.toNat < 256 ^ n.toNat := by rwa [Nat.pow_mul] at hv
  refine ⟨_, _, exec_stbe_stores h hn hv hlen, exec_ldbe_loads h hk hload, rfl, ?_⟩
  rw [returned_numberAt_res hkrange.2, haddr, numberAt_returned]
  exact numberAt_stored_part hbytes hjk

/-- Settles O53: every predicate looks at the view alone, and the three that clear SUM leave it cleared. -/
theorem predicatesAreIdempotent : Obligations.PredicatesAreIdempotent := by
  intro i s t hi h
  cases i with
  | isip => exact judge_cleared_again SameView.isIp_eq h
  | isudp => exact judge_cleared_again SameView.isUdp_eq h
  | istcp => exact judge_cleared_again SameView.isTcp_eq h
  | isucast => exact judge_again SameView.isUnicast_eq h
  | isbcast => exact judge_again SameView.isBroadcast_eq h
  | isarpreq => exact judge_again SameView.isArpRequest_eq h
  | isping => exact judge_again SameView.isPing_eq h
  | isoffer | isack => exact judge_again (·.dhcpType_eq _) h
  | issynack | ispshack | isfinack => exact judge_again (·.flagsAre_eq _) h
  | rdcsr _ | wrcsr _ _ | acc _ _ | accph _ | fin | getf _ | setf _ _ | offs _ | plen _ | ldbe _ _ | stbe _ _ _
  | dhopt _ => simp [predicates] at hi

end Sys2Proof.MemoryRules
end

section
/-! PROOFS, 30_encoding, part 1: the rows of the opcode map (R62) do not overlap, so decoding is their mask and match;
and a row's bits and the operands it takes from a word are the whole word. -/

namespace Sys2Proof

/-! ### Looking a word up -/

/-- No two rows of the opcode map have the same opcode (R62). -/
theorem opcodes_nodup : (opcodeTable.map fun r => opField r.value).Nodup := by decide

theorem row_eq_of_opcode {r r' : OpcodeRow} (hr : r ∈ opcodeTable) (hr' : r' ∈ opcodeTable)
    (h : opField r.value = opField r'.value) : r = r' :=
  List.inj_on_of_nodup_map opcodes_nodup hr hr' h

/-- What decoding finds for a row: the word has the row's opcode and the row's match value under its mask. -/
theorem decode_eq_ok_iff {w : CmdWord} {i : Instr} :
    decode w = .ok i ↔
      ∃ r ∈ opcodeTable, opField r.value = opField w ∧ w &&& r.mask = r.value ∧ r.build w = i := by
  unfold decode
  split
  next hnone =>
    refine ⟨fun h => (by cases h), fun ⟨r, hr, hop, _⟩ => ?_⟩
    exact absurd (beq_iff_eq.mpr hop) (List.find?_eq_none.mp hnone r hr)
  next r hsome =>
    have hr : r ∈ opcodeTable := List.mem_of_find?_eq_some hsome
    have hop : opField r.value = opField w := by simpa using List.find?_some hsome
    constructor
    · intro h
      split at h
      next hfit => exact ⟨r, hr, hop, hfit, Except.ok.inj h⟩
      next => cases h
    · rintro ⟨r', hr', hop', hfit, hbuild⟩
      obtain rfl := row_eq_of_opcode hr hr' (hop.trans hop'.symm)
      rw [if_pos hfit, hbuild]

/-! ### The bits that a row fixes -/

/-- A field of the word that lies under the mask is that field of the match value. -/
theorem extract_of_fits {w m v : CmdWord} (h : w &&& m = v) {start len : Nat}
    (hm : m.extractLsb' start len = BitVec.allOnes len) : w.extractLsb' start len = v.extractLsb' start len := by
  rw [← h, BitVec.extractLsb'_and, hm, BitVec.and_allOnes]

theorem mask_has_opcode : ∀ r ∈ opcodeTable, opField r.mask = BitVec.allOnes 8 := by decide

/-- A word that fits a row has the row's opcode: every mask has all bits of `op`. -/
theorem opField_of_fits {r : OpcodeRow} (hr : r ∈ opcodeTable) {w : CmdWord} (h : w &&& r.mask = r.value) :
    opField r.value = opField w :=
  (extract_of_fits h (mask_has_opcode r hr)).symm

/-- The mask and the match value decide alone (R62). -/
theorem decode_eq_ok_iff_fits {w : CmdWord} {i : Instr} :
    decode w = .ok i ↔ ∃ r ∈ opcodeTable, w &&& r.mask = r.value ∧ r.build w = i := by
  rw [decode_eq_ok_iff]
  constructor
  · rintro ⟨r, hr, -, hfit, hbuild⟩
    exact ⟨r, hr, hfit, hbuild⟩
  · rintro ⟨r, hr, hfit, hbuild⟩
    exact ⟨r, hr, opField_of_fits hr hfit, hfit, hbuild⟩

/-! ### Decoding what was encoded -/

/-- An instruction decodes from its word when the row with its opcode takes its operands out again. -/
theorem decode_encode_of_row (k : Nat) (hk : k < opcodeTable.length) {i : Instr} {opc sel : BitVec 8}
    {v : BitVec 48} (hfit : Laws.RowMatch.Statement i) (hword : encode i = wordOf opc sel v)
    (hop : opField opcodeTable[k].value = opc) (hbuild : opcodeTable[k].build (wordOf opc sel v) = i) :
    decode (encode i) = .ok i := by
  obtain ⟨r, hr, hm⟩ := hfit
  have hopc : opField r.value = opc := by rw [opField_of_fits hr hm, hword, opField_wordOf]
  obtain rfl := row_eq_of_opcode hr (List.getElem_mem hk) (hopc.trans hop.symm)
  exact decode_eq_ok_iff_fits.mpr ⟨_, hr, hm, hword ▸ hbuild⟩

theorem a0Field_low (opc s : BitVec 8) (x : BitVec 32) (y : BitVec 16) :
    a0Field (wordOf opc s (x ++ y)) = y := by
  rw [a0Field_wordOf]
  exact BitVec.extractLsb'_append_eq_right

theorem a1Field_middle (opc s : BitVec 8) (x y z : BitVec 16) : a1Field (wordOf opc s (x ++ y ++ z)) = y := by
  rw [a1Field_wordOf]
  exact (BitVec.extractLsb'_append_eq_of_le (Nat.le_refl 16)).trans BitVec.extractLsb'_append_eq_right

theorem a2Field_high (opc s : BitVec 8) (x : BitVec 16) (y : BitVec 32) : a2Field (wordOf opc s (x ++ y)) = x := by
  rw [a2Field_wordOf]
  exact BitVec.extractLsb'_append_eq_left

theorem v32Field_low (opc s : BitVec 8) (x : BitVec 16) (y : BitVec 32) : v32Field (wordOf opc s (x ++ y)) = y := by
  rw [v32Field_wordOf]
  exact BitVec.extractLsb'_append_eq_right

/-- Decoding the word of an instruction gives the instruction back (R60, R62, R65). -/
theorem decode_encode (i : Instr) : decode (encode i) = .ok i := by
  cases i with
  | rdcsr csr =>
    exact decode_encode_of_row 0 (by decide) (Laws.RowMatch.rdcsr csr) rfl rfl
      (congrArg Instr.rdcsr (selField_wordOf _ _ _))
  | wrcsr csr value =>
    exact decode_encode_of_row 1 (by decide) (Laws.RowMatch.wrcsr csr value) rfl rfl
      (congrArg₂ Instr.wrcsr (selField_wordOf _ _ _) (argField_wordOf _ _ _))
  | acc off len =>
    exact decode_encode_of_row 2 (by decide) (Laws.RowMatch.acc off len) rfl rfl
      (congrArg₂ Instr.acc (a1Field_middle _ _ _ _ _) (a0Field_low _ _ _ _))
  | accph len =>
    exact decode_encode_of_row 3 (by decide) (Laws.RowMatch.accph len) rfl rfl
      (congrArg Instr.accph (a0Field_low _ _ _ _))
  | fin => exact decode_encode_of_row 4 (by decide) Laws.RowMatch.fin rfl rfl rfl
  | getf fid =>
    exact decode_encode_of_row 5 (by decide) (Laws.RowMatch.getf fid) rfl rfl
      (congrArg Instr.getf (selField_wordOf _ _ _))
  | setf fid value =>
    exact decode_encode_of_row 6 (by decide) (Laws.RowMatch.setf fid value) rfl rfl
      (congrArg₂ Instr.setf (selField_wordOf _ _ _) (argField_wordOf _ _ _))
  | offs lid =>
    exact decode_encode_of_row 7 (by decide) (Laws.RowMatch.offs lid) rfl rfl
      (congrArg Instr.offs (selField_wordOf _ _ _))
  | plen lid =>
    exact decode_encode_of_row 8 (by decide) (Laws.RowMatch.plen lid) rfl rfl
      (congrArg Instr.plen (selField_wordOf _ _ _))
  | ldbe n off =>
    exact decode_encode_of_row 9 (by decide) (Laws.RowMatch.ldbe n off) rfl rfl
      (congrArg₂ Instr.ldbe (selField_wordOf _ _ _) (a0Field_low _ _ _ _))
  | stbe n off value =>
    refine decode_encode_of_row 10 (by decide) (Laws.RowMatch.stbe n off value) rfl rfl ?_
    show Instr.stbe (selField _) (a2Field _) (v32Field _) = _
    rw [selField_wordOf, a2Field_high, v32Field_low]
  | dhopt code =>
    exact decode_encode_of_row 11 (by decide) (Laws.RowMatch.dhopt code) rfl rfl
      (congrArg Instr.dhopt (selField_wordOf _ _ _))
  | isip => exact decode_encode_of_row 12 (by decide) Laws.RowMatch.isip rfl rfl rfl
  | isucast => exact decode_encode_of_row 13 (by decide) Laws.RowMatch.isucast rfl rfl rfl
  | isbcast => exact decode_encode_of_row 14 (by decide) Laws.RowMatch.isbcast rfl rfl rfl
  | isarpreq => exact decode_encode_of_row 15 (by decide) Laws.RowMatch.isarpreq rfl rfl rfl
  | isping => exact decode_encode_of_row 16 (by decide) Laws.RowMatch.isping rfl rfl rfl
  | isudp => exact decode_encode_of_row 17 (by decide) Laws.RowMatch.isudp rfl rfl rfl
  | istcp => exact decode_encode_of_row 18 (by decide) Laws.RowMatch.istcp rfl rfl rfl
  | isoffer => exact decode_encode_of_row 19 (by decide) Laws.RowMatch.isoffer rfl rfl rfl
  | isack => exact decode_encode_of_row 20 (by decide) Laws.RowMatch.isack rfl rfl rfl
  | issynack => exact decode_encode_of_row 21 (by decide) Laws.RowMatch.issynack rfl rfl rfl
  | ispshack => exact decode_encode_of_row 22 (by decide) Laws.RowMatch.ispshack rfl rfl rfl
  | isfinack => exact decode_encode_of_row 23 (by decide) Laws.RowMatch.isfinack rfl rfl rfl

/-! ### Encoding what was decoded -/

/-- The row loses no bit: the bits it fixes and the operands it takes make up every word that fits it. -/
def OpcodeRow.LosesNothing (r : OpcodeRow) : Prop := ∀ w, w &&& r.mask = r.value → encode (r.build w) = w

/-- It is enough that the row's instruction has the row's opcode and the `sel` and `arg` of every word that fits. -/
theorem losesNothing_of_parts {r : OpcodeRow} (hmask : opField r.mask = BitVec.allOnes 8)
    (h : ∀ w, w &&& r.mask = r.value → encode (r.build w) = wordOf (opField r.value) (selField w) (argField w)) :
    r.LosesNothing := by
  intro w hw
  rw [h w hw, opField, ← extract_of_fits hw hmask]
  exact wordOf_fields w

/-- A row that fixes every bit: its match value is the only word that fits. -/
theorem losesNothing_of_noOperand {r : OpcodeRow} (hmask : r.mask = BitVec.allOnes 64)
    (h : encode (r.build r.value) = r.value) : r.LosesNothing := by
  intro w hw
  obtain rfl : w = r.value := by rw [← hw, hmask, BitVec.and_allOnes]
  exact h

/-- A row that fixes `op` and all of `arg`, and takes `sel`. -/
theorem losesNothing_of_sel {r : OpcodeRow} (hop : opField r.mask = BitVec.allOnes 8)
    (harg : argField r.mask = BitVec.allOnes 48)
    (h : ∀ w, encode (r.build w) = wordOf (opField r.value) (selField w) (argField r.value)) : r.LosesNothing :=
  losesNothing_of_parts hop fun w hw =>
    (h w).trans (congrArg (wordOf _ _) (extract_of_fits hw harg).symm)

/-- `arg` is its three 16-bit parts (R60). -/
theorem argField_eq_parts (w : CmdWord) : a2Field w ++ a1Field w ++ a0Field w = argField w := by
  have hhigh : a2Field w ++ a1Field w = w.extractLsb' 16 32 :=
    BitVec.extractLsb'_append_extractLsb'_eq_extractLsb' rfl
  rw [hhigh]
  exact BitVec.extractLsb'_append_extractLsb'_eq_extractLsb' rfl

/-- `arg` is its upper part and its lower 32 bits (R60). -/
theorem argField_eq_a2_v32 (w : CmdWord) : a2Field w ++ v32Field w = argField w :=
  BitVec.extractLsb'_append_extractLsb'_eq_extractLsb' rfl

/-- `arg` is its upper 32 bits and its lower part. -/
theorem argField_eq_high_a0 (w : CmdWord) : w.extractLsb' 16 32 ++ a0Field w = argField w :=
  BitVec.extractLsb'_append_extractLsb'_eq_extractLsb' rfl

theorem controlRows_loseNothing : ∀ r ∈ controlRows, r.LosesNothing := by
  simp only [controlRows, List.forall_mem_cons]
  refine ⟨?rdcsr, ?wrcsr, List.forall_mem_nil _⟩
  case rdcsr => exact losesNothing_of_sel rfl rfl fun _ => rfl
  case wrcsr => exact losesNothing_of_parts rfl fun _ _ => rfl

theorem csumRows_loseNothing : ∀ r ∈ csumRows, r.LosesNothing := by
  simp only [csumRows, List.forall_mem_cons]
  refine ⟨?acc, ?accph, ?fin, List.forall_mem_nil _⟩
  case acc =>
    refine losesNothing_of_parts rfl fun w hw => ?_
    have hsel : selField w = 0 := extract_of_fits hw rfl
    have ha2 : a2Field w = 0 := extract_of_fits hw rfl
    rw [← argField_eq_parts, ha2, hsel]
    rfl
  case accph =>
    refine losesNothing_of_parts rfl fun w hw => ?_
    have hsel : selField w = 0 := extract_of_fits hw rfl
    have hhigh : w.extractLsb' 16 32 = 0 := extract_of_fits hw rfl
    rw [← argField_eq_high_a0, hhigh, hsel]
    rfl
  case fin => exact losesNothing_of_noOperand rfl rfl

theorem codecRows_loseNothing : ∀ r ∈ codecRows, r.LosesNothing := by
  simp only [codecRows, List.forall_mem_cons]
  refine ⟨?getf, ?setf, ?offs, ?plen, ?ldbe, ?stbe, ?dhopt, List.forall_mem_nil _⟩
  case getf | offs | plen | dhopt => exact losesNothing_of_sel rfl rfl fun _ => rfl
  case setf => exact losesNothing_of_parts rfl fun _ _ => rfl
  case ldbe =>
    refine losesNothing_of_parts rfl fun w hw => ?_
    have hhigh : w.extractLsb' 16 32 = 0 := extract_of_fits hw rfl
    rw [← argField_eq_high_a0, hhigh]
    rfl
  case stbe =>
    refine losesNothing_of_parts rfl fun w _ => ?_
    rw [← argField_eq_a2_v32]
    rfl

theorem clsRows_loseNothing : ∀ r ∈ clsRows, r.LosesNothing := by
  have hrows : ∀ r ∈ clsRows, r.mask = BitVec.allOnes 64 ∧ encode (r.build r.value) = r.value := by decide
  intro r hr
  obtain ⟨hmask, hvalue⟩ := hrows r hr
  exact losesNothing_of_noOperand hmask hvalue

theorem opcodeTable_losesNothing : ∀ r ∈ opcodeTable, r.LosesNothing := by
  simp only [opcodeTable, List.forall_mem_append]
  exact ⟨⟨⟨controlRows_loseNothing, csumRows_loseNothing⟩, codecRows_loseNothing⟩, clsRows_loseNothing⟩

theorem encode_of_decode {w : CmdWord} {i : Instr} (h : decode w = .ok i) : encode i = w := by
  obtain ⟨r, hr, hfit, rfl⟩ := decode_eq_ok_iff_fits.mp h
  exact opcodeTable_losesNothing r hr w hfit

/-! ### Illegal words -/

/-- A word that does not decode has an opcode of no row, or it has a row's opcode and does not fit the row (R63). -/
theorem not_decodes_iff {w : CmdWord} :
    (¬ ∃ i, decode w = .ok i) ↔
      opField w ∉ opcodeTable.map (fun r => opField r.value) ∨
        ∃ r ∈ opcodeTable, opField r.value = opField w ∧ w &&& r.mask ≠ r.value := by
  constructor
  · intro h
    by_cases hop : opField w ∈ opcodeTable.map (fun r => opField r.value)
    · obtain ⟨r, hr, hrop⟩ := List.mem_map.mp hop
      exact .inr ⟨r, hr, hrop, fun hfit => h ⟨_, decode_eq_ok_iff.mpr ⟨r, hr, hrop, hfit, rfl⟩⟩⟩
    · exact .inl hop
  · rintro h ⟨i, hi⟩
    obtain ⟨r, hr, hop, hfit, -⟩ := decode_eq_ok_iff.mp hi
    obtain hunknown | ⟨r', hr', hop', hbit⟩ := h
    · exact hunknown (List.mem_map.mpr ⟨r, hr, hop⟩)
    · obtain rfl := row_eq_of_opcode hr hr' (hop.trans hop'.symm)
      exact hbit hfit

namespace Machine

/-- An illegal word raises Illegal and is not executed (R63, R203). -/
theorem execWord_of_not_decodes {w : CmdWord} (h : ¬ ∃ i, decode w = .ok i) (s : State) :
    execWord w s = .next (s.raised .illegal) := by
  unfold execWord
  cases hw : decode w with
  | ok i => exact absurd ⟨i, hw⟩ h
  | error _ => rfl

end Machine

end Sys2Proof
end

section
/-! PROOFS, 30_encoding, part 2: the operand checks that need the command word alone (R64), and what an operation can
raise after them (R202). -/

namespace Sys2Proof.Machine

/-! ### What the checks of a word ask -/

theorem setfFits_of_row {fid : BitVec 8} {value : BitVec 48} {r : FieldRow} (hr : fieldRow fid = some r) :
    setfFits fid value = decide (value.toNat < fieldLimit r) := by
  simp only [setfFits, hr]

theorem stbeFits_of_count {n : BitVec 8} {value : BitVec 32} {k : Nat} (hk : byteCount n = some k) :
    stbeFits n value = decide (value.toNat < 2 ^ (8 * k)) := by
  simp only [stbeFits, hk]

theorem setfFits_assigned {fid : BitVec 8} {value : BitVec 48} (h : setfFits fid value = true) :
    (fieldRow fid).isSome := by
  cases hr : fieldRow fid with
  | none => simp [setfFits, hr] at h
  | some r => rfl

theorem stbeFits_legal {n : BitVec 8} {value : BitVec 32} (h : stbeFits n value = true) : (byteCount n).isSome := by
  cases hk : byteCount n with
  | none => simp [stbeFits, hk] at h
  | some k => rfl

theorem wrcsrFits_assigned {csr : BitVec 8} {value : BitVec 48} (h : wrcsrFits csr value = true) :
    (csrOfNum csr).isSome := by
  cases hc : csrOfNum csr with
  | none => simp [wrcsrFits, hc] at h
  | some c => rfl

/-- WRCSR refuses in every state what its word alone shows not to fit: a LEN that 16 bits do not hold is above CAP
(R191). -/
theorem writeCsr_of_not_fits {csr : BitVec 8} {value : BitVec 48} {c : Csr} (hc : csrOfNum csr = some c)
    (hfits : wrcsrFits csr value = false) (s : State) : writeCsr s c value.toNat = raise .operand := by
  simp only [wrcsrFits, hc] at hfits
  cases c with
  | len =>
    have hcap := s.cap.isLt
    have hvalue : 2 ^ 16 ≤ value.toNat := by simpa using hfits
    exact if_pos (by omega)
  | localMac => cases hfits
  | localIp => exact if_pos (by simpa using hfits)
  | cap | sum | res | st => rfl

/-! ### Where a check fails -/

section
variable {α : Type} {s : State} {o : Option α} {e : Exc}

/-- A selector's look-up raises where every value it can give raises the same. -/
theorem answer_orRaise {f : α → Eval Nat} (h : ∀ a, o = some a → answer s (f a) = .next (s.raised e)) :
    answer s (orRaise o e >>= f) = .next (s.raised e) := by
  cases o with
  | none => rfl
  | some a => exact h a rfl

theorem conclude_orRaise {f : α → Eval (State × Nat)}
    (h : ∀ a, o = some a → conclude s (f a) = .next (s.raised e)) :
    conclude s (orRaise o e >>= f) = .next (s.raised e) := by
  cases o with
  | none => rfl
  | some a => exact h a rfl

theorem answer_unassigned {f : α → Eval Nat} (h : o.isSome = false) :
    answer s (orRaise o e >>= f) = .next (s.raised e) :=
  answer_orRaise fun a ha => by simp [ha] at h

end

/-- An operation whose word fails a check raises Operand before it looks at the frame (R64, R204). -/
theorem exec_of_not_wellFormed {i : Instr} (h : i.wellFormed = false) (s : State) :
    exec i s = .next (s.raised .operand) := by
  cases i with
  | rdcsr _ | getf _ | offs _ | plen _ | ldbe _ _ => exact answer_unassigned h
  | wrcsr csr value =>
    refine conclude_orRaise fun c hc => ?_
    rw [writeCsr_of_not_fits hc h s, raise_bind, conclude_raise]
  | setf fid value =>
    refine conclude_orRaise fun r hr => ?_
    have hwide : fieldLimit r ≤ value.toNat := by simpa [Instr.wellFormed, setfFits_of_row hr] using h
    rw [raiseIf_bind, if_pos hwide, conclude_raise]
  | stbe n off value =>
    refine conclude_orRaise fun k hk => ?_
    have hwide : 2 ^ (8 * k) ≤ value.toNat := by simpa [Instr.wellFormed, stbeFits_of_count hk] using h
    rw [raiseIf_bind, if_pos hwide, conclude_raise]
  | dhopt code =>
    have hcode : code = 255 := by simpa [Instr.wellFormed] using h
    subst hcode
    rfl
  | acc _ _ | accph _ | fin | isip | isucast | isbcast | isarpreq | isping | isudp | istcp | isoffer | isack
  | issynack | ispshack | isfinack => cases h

/-! ### What a piece of pseudocode can raise -/

/-- Every exception that a piece of pseudocode raises is one of the list. -/
def RaisesOnly {α : Type} (es : List Exc) (x : Eval α) : Prop := ∀ e, x = .error (.raise e) → e ∈ es

section
variable {α β : Type} {es : List Exc} {e : Exc}

theorem RaisesOnly.ok (a : α) : RaisesOnly es (.ok a : Eval α) := fun _ h => by cases h

theorem RaisesOnly.fault (f : Fault) : RaisesOnly es (.error (.fault f) : Eval α) := fun _ h => by cases h

theorem RaisesOnly.raise (he : e ∈ es) : RaisesOnly es (raise e : Eval α) := fun _ h => by cases h; exact he

theorem RaisesOnly.bind {x : Eval α} {f : α → Eval β} (hx : RaisesOnly es x)
    (hf : ∀ a, x = .ok a → RaisesOnly es (f a)) : RaisesOnly es (x >>= f) := by
  intro e h
  obtain h | ⟨a, ha, h⟩ := bind_error_iff.mp h
  · exact hx e h
  · exact hf a ha e h

theorem RaisesOnly.ite {c : Prop} [Decidable c] {x y : Eval α} (hx : RaisesOnly es x) (hy : RaisesOnly es y) :
    RaisesOnly es (if c then x else y) := by
  split
  · exact hx
  · exact hy

theorem RaisesOnly.raiseIf {c : Prop} [Decidable c] (he : e ∈ es) : RaisesOnly es (raiseIf c e) :=
  .ite (.raise he) (.ok ())

/-- `if c: raise E` in front of other lines. -/
theorem RaisesOnly.guard {c : Prop} [Decidable c] {f : Unit → Eval β} (he : e ∈ es) (hf : RaisesOnly es (f ())) :
    RaisesOnly es (Machine.raiseIf c e >>= f) :=
  .bind (.raiseIf he) fun _ _ => hf

/-- A check that passes raises nothing. -/
theorem RaisesOnly.passed {c : Prop} [Decidable c] {f : Unit → Eval β} (hc : ¬ c) (hf : RaisesOnly es (f ())) :
    RaisesOnly es (Machine.raiseIf c e >>= f) := by
  rwa [raiseIf_bind, if_neg hc]

/-- The look-up of a selector that is assigned raises nothing. -/
theorem RaisesOnly.assigned {o : Option α} {f : α → Eval β} (ho : o.isSome)
    (hf : ∀ a, o = some a → RaisesOnly es (f a)) : RaisesOnly es (orRaise o e >>= f) := by
  cases o with
  | none => cases ho
  | some a => exact hf a rfl

theorem RaisesOnly.map {x : Eval α} (g : α → β) (hx : RaisesOnly es x) : RaisesOnly es (x.map g) := by
  intro e h
  cases x with
  | ok a => cases h
  | error x => exact hx e (by simpa [Except.map] using h)

end

/-! ### What the functions of the rules can raise -/

section
variable {es : List Exc} (s : State)

section
variable (hb : .bounds ∈ es)
include hb

theorem checkRange_raises (a n : Nat) : RaisesOnly es (checkRange s a n) :=
  .ite (.raise hb) (.ite (.fault _) (.ok _))

theorem readRange_raises (a n : Nat) : RaisesOnly es (readRange s a n) :=
  .bind (checkRange_raises s hb a n) fun _ _ => .ok _

theorem memRead_raises (a n : Nat) : RaisesOnly es (memRead s a n) :=
  .bind (readRange_raises s hb a n) fun _ _ => .ok _

theorem memWrite_raises (a n v : Nat) : RaisesOnly es (memWrite s a n v) :=
  .bind (checkRange_raises s hb a n) fun _ _ => .ok _

theorem pseudoSum_raises (proto len : Nat) : RaisesOnly es (pseudoSum s proto len) :=
  .bind (memRead_raises s hb _ _) fun _ _ => .bind (memRead_raises s hb _ _) fun _ _ =>
    .bind (memRead_raises s hb _ _) fun _ _ => .bind (memRead_raises s hb _ _) fun _ _ => .ok _

theorem segmentValidates_raises (proto b len : Nat) : RaisesOnly es (segmentValidates s proto b len) :=
  .guard hb <| .bind (pseudoSum_raises s hb _ _) fun _ _ => .bind (readRange_raises s hb _ _) fun _ _ => .ok _

theorem isUnicast_raises : RaisesOnly es (isUnicast s) := .bind (memRead_raises s hb _ _) fun _ _ => .ok _

theorem isBroadcast_raises : RaisesOnly es (isBroadcast s) := .bind (memRead_raises s hb _ _) fun _ _ => .ok _

theorem isArpRequest_raises : RaisesOnly es (isArpRequest s) :=
  .bind (memRead_raises s hb _ _) fun _ _ => .ite (.ok _) <| .bind (memRead_raises s hb _ _) fun _ _ =>
    .ite (.ok _) <| .bind (memRead_raises s hb _ _) fun _ _ => .ok _

theorem scanOptions_raises (hn : .notFound ∈ es) (code n p : Nat) : RaisesOnly es (scanOptions s code n p) := by
  induction n generalizing p with
  | zero => exact .raise hb
  | succ n ih =>
    exact .bind (memRead_raises s hb _ _) fun _ _ => .guard hn <| .bind (memRead_raises s hb _ _) fun _ _ =>
      .ite (.guard hb (.ok _)) (ih _)

section
variable (hf : .format ∈ es)
include hf

theorem ihl_raises : RaisesOnly es (ihl s) :=
  .bind (memRead_raises s hb _ _) fun _ _ => .guard hf (.ok _)

theorem ipp_raises : RaisesOnly es (ipp s) := .bind (ihl_raises s hb hf) fun _ _ => .ok _

theorem doff_raises : RaisesOnly es (doff s) :=
  .bind (ipp_raises s hb hf) fun _ _ => .bind (memRead_raises s hb _ _) fun _ _ => .guard hf (.ok _)

theorem tcpp_raises : RaisesOnly es (tcpp s) :=
  .bind (ipp_raises s hb hf) fun _ _ => .bind (doff_raises s hb hf) fun _ _ => .ok _

theorem dhb_raises : RaisesOnly es (dhb s) := .bind (ipp_raises s hb hf) fun _ _ => .ok _

theorem baseOf_raises (b : LayerBase) : RaisesOnly es (baseOf s b) := by
  cases b with
  | frame | net => exact .ok _
  | ippay => exact ipp_raises s hb hf
  | udppay => exact dhb_raises s hb hf
  | tcppay => exact tcpp_raises s hb hf

theorem optionPresent_raises (r : FieldRow) : RaisesOnly es (optionPresent s r) :=
  .ite (.bind (doff_raises s hb hf) fun _ _ => .raiseIf hf) (.ok _)

theorem fieldAddress_raises (r : FieldRow) : RaisesOnly es (fieldAddress s r) :=
  .bind (baseOf_raises s hb hf _) fun _ _ => .bind (optionPresent_raises s hb hf r) fun _ _ => .ok _

theorem udpLength_raises : RaisesOnly es (udpLength s) :=
  .bind (ipp_raises s hb hf) fun _ _ => memRead_raises s hb _ _

theorem remainingLength_raises : RaisesOnly es (remainingLength s) :=
  .bind (tcpp_raises s hb hf) fun _ _ => .bind (memRead_raises s hb _ _) fun _ _ => .guard hf (.ok _)

theorem layerOffset_raises (l : Layer) : RaisesOnly es (layerOffset s l) := by
  cases l with
  | frame | net => exact .ok _
  | ipopt => exact .bind (ihl_raises s hb hf) fun _ _ => .ok _
  | ippay => exact ipp_raises s hb hf
  | tcpopt => exact .bind (doff_raises s hb hf) fun _ _ => .bind (ipp_raises s hb hf) fun _ _ => .ok _
  | udppay | dhopt => exact .bind (ipp_raises s hb hf) fun _ _ => .ok _
  | tcppay => exact tcpp_raises s hb hf
  | mqbody => exact .bind (tcpp_raises s hb hf) fun _ _ => .ok _

theorem layerLength_raises (l : Layer) : RaisesOnly es (layerLength s l) := by
  cases l with
  | frame | net => exact .ok _
  | ipopt => exact .bind (ihl_raises s hb hf) fun _ _ => .ok _
  | ippay => exact .bind (memRead_raises s hb _ _) fun _ _ => .bind (ihl_raises s hb hf) fun _ _ => .ok _
  | tcpopt => exact .bind (doff_raises s hb hf) fun _ _ => .ok _
  | udppay | dhopt => exact .bind (udpLength_raises s hb hf) fun _ _ => .ok _
  | tcppay =>
    exact .bind (memRead_raises s hb _ _) fun _ _ => .bind (ihl_raises s hb hf) fun _ _ =>
      .bind (doff_raises s hb hf) fun _ _ => .ok _
  | mqbody => exact .bind (remainingLength_raises s hb hf) fun _ _ => .ok _

theorem layerStart_raises (l : Layer) : RaisesOnly es (layerStart s l) :=
  .bind (layerOffset_raises s hb hf l) fun _ _ => .guard hb (.ok _)

theorem flagsAre_raises (pattern : Nat) : RaisesOnly es (flagsAre s pattern) :=
  .bind (.bind (ipp_raises s hb hf) fun _ _ => .bind (memRead_raises s hb _ _) fun _ _ => .ok _) fun _ _ => .ok _

theorem isIp_raises : RaisesOnly es (isIp s) :=
  .bind (memRead_raises s hb _ _) fun _ _ => .ite (.ok _) <| .bind (ihl_raises s hb hf) fun _ _ =>
    .guard hb <| .bind (readRange_raises s hb _ _) fun _ _ => .ok _

theorem isPing_raises : RaisesOnly es (isPing s) :=
  .bind (memRead_raises s hb _ _) fun _ _ => .ite (.ok _) <| .bind (ipp_raises s hb hf) fun _ _ =>
    .bind (memRead_raises s hb _ _) fun _ _ => .ok _

theorem isUdp_raises : RaisesOnly es (isUdp s) :=
  .bind (memRead_raises s hb _ _) fun _ _ => .ite (.ok _) <| .bind (ipp_raises s hb hf) fun _ _ =>
    .bind (memRead_raises s hb _ _) fun _ _ => .guard hf (segmentValidates_raises s hb _ _ _)

theorem isTcp_raises : RaisesOnly es (isTcp s) :=
  .bind (memRead_raises s hb _ _) fun _ _ => .ite (.ok _) <| .bind (ihl_raises s hb hf) fun _ _ =>
    .bind (memRead_raises s hb _ _) fun _ _ => .guard hf (segmentValidates_raises s hb _ _ _)

theorem findOption_raises (hn : .notFound ∈ es) (code : Nat) : RaisesOnly es (findOption s code) :=
  .bind (dhb_raises s hb hf) fun _ _ => .bind (memRead_raises s hb _ _) fun _ _ =>
    .guard hf (scanOptions_raises s hb hn _ _ _)

theorem dhcpType_raises (hn : .notFound ∈ es) (want : Nat) : RaisesOnly es (dhcpType s want) :=
  .bind (dhb_raises s hb hf) fun _ _ => .bind (findOption_raises s hb hf hn _) fun _ _ => .guard hf <|
    .bind (memRead_raises s hb _ _) fun _ _ => .ite (.ok _) (.bind (memRead_raises s hb _ _) fun _ _ => .ok _)

end

end

end

/-! ### What the operations can raise -/

/-- ST after the outcome, if it goes on, is OK or the cause code of an exception of the list. -/
def RespondsWithin (es : List Exc) (o : Host.Outcome State Fault Refusal) : Prop :=
  ∀ t, o = .next t → t.st = okCode ∨ ∃ e ∈ es, t.st = causeCode e

theorem answer_respondsWithin {es : List Exc} {s : State} {r : Eval Nat} (hr : RaisesOnly es r) :
    RespondsWithin es (answer s r) := by
  intro t ht
  obtain ⟨v, -, rfl⟩ | ⟨e, he, rfl⟩ := answer_next ht
  · exact .inl rfl
  · exact .inr ⟨e, hr e he, rfl⟩

theorem conclude_respondsWithin {es : List Exc} {s : State} {r : Eval (State × Nat)} (hr : RaisesOnly es r) :
    RespondsWithin es (conclude s r) := by
  intro t ht
  obtain ⟨u, v, -, rfl⟩ | ⟨e, he, rfl⟩ := conclude_next ht
  · exact .inl rfl
  · exact .inr ⟨e, hr e he, rfl⟩

/-- Of a value that fits its register, WRCSR refuses nothing but a LEN above CAP (R191). -/
theorem writeCsr_raises {es : List Exc} {s : State} {csr : BitVec 8} {value : BitVec 48} {c : Csr}
    (hc : csrOfNum csr = some c) (hfits : wrcsrFits csr value = true)
    (hlen : csr = 1 → value.toNat ≤ s.cap.toNat) : RaisesOnly es (writeCsr s c value.toNat) := by
  obtain rfl := eq_csrNumber hc
  simp only [wrcsrFits, hc] at hfits
  cases c with
  | len =>
    rw [writeCsr, if_neg (Nat.not_lt.mpr (hlen rfl))]
    exact .ok _
  | localMac => exact .ok _
  | localIp =>
    rw [writeCsr, if_neg (Nat.not_le.mpr (by simpa using hfits))]
    exact .ok _
  | cap | sum | res | st => cases hfits

/-- The exceptions that the content of the frame decides (R202): all but Illegal and Operand. -/
def frameExceptions : List Exc := [.bounds, .format, .notFound]

/-- After the checks of the word, and of LEN against CAP, an operation raises only what the frame decides (R64,
R202). -/
theorem exec_of_wellFormed {i : Instr} {s : State} (h : i.wellFormed = true)
    (hlen : ∀ value, i = .wrcsr 1 value → value.toNat ≤ s.cap.toNat) : RespondsWithin frameExceptions (exec i s) := by
  have hb : Exc.bounds ∈ frameExceptions := by decide
  have hf : Exc.format ∈ frameExceptions := by decide
  have hn : Exc.notFound ∈ frameExceptions := by decide
  cases i with
  | rdcsr csr => exact answer_respondsWithin (.assigned h fun _ _ => .ok _)
  | wrcsr csr value =>
    have hcap : csr = 1 → value.toNat ≤ s.cap.toNat := fun hcsr => hlen value (by rw [hcsr])
    exact conclude_respondsWithin (.assigned (wrcsrFits_assigned h) fun c hc =>
      .bind (writeCsr_raises hc h hcap) fun _ _ => .ok _)
  | acc off len => exact conclude_respondsWithin (.bind (readRange_raises s hb _ _) fun _ _ => .ok _)
  | accph len =>
    exact conclude_respondsWithin
      (.bind (memRead_raises s hb _ _) fun _ _ => .bind (pseudoSum_raises s hb _ _) fun _ _ => .ok _)
  | fin => exact conclude_respondsWithin (s := s) (.ok (clearSum s, _))
  | getf fid =>
    exact answer_respondsWithin (.assigned h fun r _ => .bind (fieldAddress_raises s hb hf r) fun _ _ =>
      .bind (memRead_raises s hb _ _) fun _ _ => .guard hf (.ok _))
  | setf fid value =>
    refine conclude_respondsWithin (.assigned (setfFits_assigned h) fun r hr => ?_)
    have hfits : value.toNat < fieldLimit r := by simpa [Instr.wellFormed, setfFits_of_row hr] using h
    exact .passed (Nat.not_le.mpr hfits) <| .bind (fieldAddress_raises s hb hf r) fun _ _ =>
      .bind (memRead_raises s hb _ _) fun _ _ => .bind (memWrite_raises s hb _ _ _) fun _ _ => .ok _
  | offs lid => exact answer_respondsWithin (.assigned h fun l _ => layerStart_raises s hb hf l)
  | plen lid =>
    exact answer_respondsWithin (.assigned h fun l _ => .bind (layerStart_raises s hb hf l) fun _ _ =>
      .bind (layerLength_raises s hb hf l) fun _ _ => .guard hf <| .guard hb (.ok _))
  | ldbe n off => exact answer_respondsWithin (.assigned h fun k _ => memRead_raises s hb _ k)
  | stbe n off value =>
    refine conclude_respondsWithin (.assigned (stbeFits_legal h) fun k hk => ?_)
    have hfits : value.toNat < 2 ^ (8 * k) := by simpa [Instr.wellFormed, stbeFits_of_count hk] using h
    exact .passed (Nat.not_le.mpr hfits) <| .bind (memWrite_raises s hb _ _ _) fun _ _ => .ok _
  | dhopt code =>
    have hcode : code.toNat ≠ 255 := by simpa [Instr.wellFormed, ← BitVec.toNat_inj] using h
    exact answer_respondsWithin (.passed hcode <| .bind (findOption_raises s hb hf hn _) fun _ _ => .ok _)
  | isip => exact answer_respondsWithin (.map _ (isIp_raises _ hb hf))
  | isucast => exact answer_respondsWithin (.map _ (isUnicast_raises s hb))
  | isbcast => exact answer_respondsWithin (.map _ (isBroadcast_raises s hb))
  | isarpreq => exact answer_respondsWithin (.map _ (isArpRequest_raises s hb))
  | isping => exact answer_respondsWithin (.map _ (isPing_raises s hb hf))
  | isudp => exact answer_respondsWithin (.map _ (isUdp_raises _ hb hf))
  | istcp => exact answer_respondsWithin (.map _ (isTcp_raises _ hb hf))
  | isoffer | isack => exact answer_respondsWithin (.map _ (dhcpType_raises s hb hf hn _))
  | issynack | ispshack | isfinack => exact answer_respondsWithin (.map _ (flagsAre_raises s hb hf _))

/-- ST tells Operand from OK and from every other exception (R201). -/
theorem st_ne_operand {es : List Exc} {o : Host.Outcome State Fault Refusal} {t : State}
    (h : RespondsWithin es o) (hes : .operand ∉ es) (ht : o = .next t) : t.st ≠ causeCode .operand := by
  obtain hok | ⟨e, he, hst⟩ := h t ht
  · rw [hok]
    decide
  · rw [hst]
    intro hcode
    cases e with
    | operand => exact hes he
    | illegal | bounds | format | notFound => exact absurd hcode (by decide)

end Sys2Proof.Machine
end

section
/-! PROOFS, 30_encoding, part 3: the field table as R128 prints it, where fields and layers lie, and the option scan
(R128, R129, R131). -/

namespace Sys2Proof.Machine

open Sys2Proof.Safety

/-! ### The field table (R128) -/

/-- The line of R128 that stands for a row of the table. -/
def lineOfRow (r : FieldRow) : LayoutLine :=
  (r.fid, r.name, r.base, r.offset, r.container, r.hi, r.lo, fieldWidth r)

/-- The lines of R128 are those of the table, in its order. -/
theorem layout_eq_map_fieldTable : layout = fieldTable.map lineOfRow := rfl

/-- No two rows of the table have the same field id (R67). -/
theorem fieldIds_nodup : (fieldTable.map FieldRow.fid).Nodup := by decide

/-- A row of the table is what its own field id is looked up to. -/
theorem fieldRow_of_mem {r : FieldRow} (hr : r ∈ fieldTable) : fieldRow r.fid = some r := by
  cases hrow : fieldRow r.fid with
  | none => exact absurd (beq_self_eq_true r.fid) (List.find?_eq_none.mp hrow r hr)
  | some r' =>
    obtain ⟨hr', hfid⟩ := fieldRow_inv hrow
    rw [List.inj_on_of_nodup_map fieldIds_nodup hr' hr hfid]

theorem fieldRow_eq_none {fid : BitVec 8} (h : ∀ r ∈ fieldTable, r.fid ≠ fid) : fieldRow fid = none :=
  List.find?_eq_none.mpr fun r hr hfid => h r hr (by simpa using hfid)

/-! ### Layer ids (R68) -/

/-- The layer ids above 8 are unassigned (R68). -/
theorem layerOfNum_eq_none {lid : BitVec 8} (h : 8 < lid.toNat) : layerOfNum lid = none := by
  unfold layerOfNum
  split
  on_goal -1 => rfl
  all_goals omega

/-! ### Where fields and layers lie, in states with LEN at most CAP (R24) -/

/-- Only a field of the IPv4 payload hangs on an option word (R121). -/
theorem base_of_tcpOpt16 : ∀ r ∈ fieldTable, r.name = .tcpOpt16 → r.base = .ippay := by decide

theorem doffFail_of_ihlFail {s : State} {e : Exc} (hihl : ihlFail s = some e) : doffFail s = some e := by
  simp only [doffFail, hihl]

section
variable {s : State} (h : s.len.toNat ≤ s.cap.toNat)
include h

theorem baseOf_eq (b : LayerBase) : baseOf s b = walked (baseFail s b) (baseAt s b) := by
  cases b with
  | frame | net => rfl
  | ippay => exact ipp_eq h
  | udppay => exact dhb_eq h
  | tcppay => exact tcpp_eq h

/-- Where a field's container lies, or what finding it raises (R116, R121, R128). -/
theorem fieldAddress_eq {r : FieldRow} (hr : r ∈ fieldTable) :
    fieldAddress s r = walked (fieldFail s r) (baseAt s r.base + r.offset) := by
  unfold fieldAddress optionPresent fieldFail
  rw [baseOf_eq h]
  by_cases hname : r.name = .tcpOpt16
  · rw [if_pos hname, if_pos hname, base_of_tcpOpt16 r hr hname, doff_eq h]
    cases hihl : ihlFail s with
    | some e => simp only [baseFail, hihl, doffFail_of_ihlFail hihl, walked_some, raise_bind]
    | none =>
      cases doffFail s with
      | some e => simp only [baseFail, hihl, walked_some, walked_none, ok_bind, raise_bind]
      | none =>
        simp only [baseFail, hihl, walked_none, ok_bind, raiseIf_bind]
        split <;> rfl
  · rw [if_neg hname, if_neg hname]
    cases baseFail s r.base <;> rfl

theorem layerOffset_eq (l : Layer) : layerOffset s l = walked (layerFail s l) (layerAt s l) := by
  cases l with
  | frame | net => rfl
  | ippay => exact ipp_eq h
  | tcppay => exact tcpp_eq h
  | ipopt | udppay | dhopt =>
    simp only [layerOffset, ihl_eq h, ipp_eq h, layerFail, layerAt]
    cases ihlFail s <;> rfl
  | mqbody =>
    simp only [layerOffset, tcpp_eq h, layerFail, layerAt]
    cases doffFail s <;> rfl
  | tcpopt =>
    simp only [layerOffset, doff_eq h, ipp_eq h, layerFail, layerAt]
    cases hd : doffFail s with
    | some e => rfl
    | none => rw [ihlFail_of_doffFail hd]; rfl

/-- The first lines of OFFS and of PLEN (R142, R143). -/
theorem layerStart_eq (l : Layer) :
    layerStart s l =
      match layerFail s l with
      | some e => raise e
      | none => if s.len.toNat < layerAt s l then raise .bounds else .ok (layerAt s l) := by
  unfold layerStart
  rw [layerOffset_eq h]
  cases layerFail s l with
  | some e => rfl
  | none => simp only [walked_none, ok_bind, raiseIf_bind]

end

/-! ### The option scan (R131) -/

/-- Every option takes at least two bytes (R124). -/
theorem optionsAt_le {s : State} {os : List (Nat × Nat)} {p q : Nat} (h : OptionsAt s p os q) :
    p + 2 * os.length ≤ q := by
  induction os generalizing p with
  | nil => exact (show p = q from h).le
  | cons o os ih =>
    obtain ⟨c, l⟩ := o
    obtain ⟨-, -, hrest⟩ := h
    have hle := ih hrest
    rw [List.length_cons]
    omega

section
variable {s : State} (h : s.len.toNat ≤ s.cap.toNat)
include h

/-- `FindOpt` up to its loop: the raises of the cookie come first. -/
theorem findOption_eq (code : Nat) :
    findOption s code =
      match cookieFail s with
      | some e => raise e
      | none => scanOptions s code (s.len.toNat + 1) (payloadAt s + 248) := by
  unfold findOption cookieFail
  rw [dhb_eq h]
  cases ihlFail s with
  | some e => rfl
  | none =>
    have hread : memRead s (payloadAt s + 8 + 236) 4 =
        if s.len.toNat < payloadAt s + 248 then raise .bounds else .ok (numberAt s (payloadAt s + 244) 4) :=
      memRead_eq h _ _
    simp only [walked_none, ok_bind, hread]
    by_cases hlen : s.len.toNat < payloadAt s + 248
    · rw [if_pos hlen, if_pos hlen, raise_bind]
    · rw [if_neg hlen, if_neg hlen, ok_bind, raiseIf_bind, magicCookie]
      by_cases hmagic : numberAt s (payloadAt s + 244) 4 ≠ 0x63825363
      · rw [if_pos hmagic, if_pos hmagic]
      · rw [if_neg hmagic, if_neg hmagic]

theorem memRead_byte_below {a : Nat} (ha : a < s.len.toNat) : memRead s a 1 = .ok (byteAt s a) := by
  rw [memRead_below h ha, numberAt_one]

/-- One pass of the loop whose code and length byte are supplied. -/
theorem scanOptions_pass {p : Nat} (hp : p + 2 ≤ s.len.toNat) (code n : Nat) :
    scanOptions s code (n + 1) p =
      if byteAt s p = 255 then raise .notFound
      else if byteAt s p = code then
        if s.len.toNat < p + 2 + byteAt s (p + 1) then raise .bounds else .ok (p + 2, byteAt s (p + 1))
      else scanOptions s code n (p + 2 + byteAt s (p + 1)) := by
  have hcode : memRead s p 1 = .ok (byteAt s p) := memRead_byte_below h (by omega)
  have hlength : memRead s (p + 1) 1 = .ok (byteAt s (p + 1)) := memRead_byte_below h hp
  simp only [scanOptions, hcode, hlength, ok_bind, raiseIf_bind]

/-- Options with other codes below LEN are skipped, one pass each. -/
theorem scanOptions_skip {os : List (Nat × Nat)} {p q code : Nat} (hos : OptionsAt s p os q)
    (hother : ∀ o ∈ os, o.1 ≠ code ∧ o.1 ≠ 255) (hq : q ≤ s.len.toNat) (n : Nat) :
    scanOptions s code (n + os.length) p = scanOptions s code n q := by
  induction os generalizing p with
  | nil => rw [show p = q from hos]; rfl
  | cons o os ih =>
    obtain ⟨c, l⟩ := o
    obtain ⟨hcode, hlength, hrest⟩ := hos
    obtain ⟨⟨hne, hend⟩, hothers⟩ := List.forall_mem_cons.mp hother
    have hle := optionsAt_le hrest
    have hp : p + 2 ≤ s.len.toNat := by omega
    rw [List.length_cons, ← Nat.add_assoc, scanOptions_pass h hp, hcode, hlength, if_neg hend, if_neg hne]
    exact ih hrest hothers

end

end Sys2Proof.Machine
end

section
/-! PROOFS, 30_encoding, part 4: the statements. -/

namespace Sys2Proof.EncodingRules

open Sys2Proof.Machine Sys2Proof.Safety

/-- Settles O10, by the 24 operations: the row with the operation's opcode takes its operands out again. -/
theorem decodeOfEncode : Obligations.DecodeOfEncode := decode_encode

/-- Settles O11: no row of the opcode map loses a bit of a word that fits it. -/
theorem encodeOfDecode : Obligations.EncodeOfDecode := fun _ _ => encode_of_decode

/-- Settles O5: a word that decodes is an operation, which ends in a next state; any other raises Illegal. -/
theorem everyWordCompletes : Obligations.EveryWordCompletes := fun w _ h => execWord_completes h w

/-- Settles O12: no two rows share an opcode, and every mask has all bits of `op`. -/
theorem wordDecodesByMaskAndMatch : Obligations.WordDecodesByMaskAndMatch := fun _ _ => decode_eq_ok_iff_fits

/-- Settles O13: the opcodes written out are those of the table. -/
theorem illegalWordsChangeNothing : Obligations.IllegalWordsChangeNothing :=
  ⟨fun _ => not_decodes_iff, fun _ s h => execWord_of_not_decodes h s⟩

/-- Settles O15: each failed check stands in front of every line that looks at the frame. -/
theorem illFormedRaisesOperand : Obligations.IllFormedRaisesOperand := fun _ s h => exec_of_not_wellFormed h s

/-- Settles O16: apart from that WRCSR, the checks of a well-formed instruction pass and the lines behind them raise
only what the frame decides. -/
theorem wellFormedRaisesOperandOnlyForLen : Obligations.WellFormedRaisesOperandOnlyForLen := by
  intro i s t hwf ht hst
  by_contra hnone
  have hlen : ∀ value, i = .wrcsr 1 value → value.toNat ≤ s.cap.toNat := fun value hi =>
    Nat.not_lt.mp fun hlt => hnone ⟨value, hi, hlt⟩
  exact st_ne_operand (exec_of_wellFormed hwf hlen) (by decide) ht hst

/-- Settles O29: the lines of R128 are the rows of the table, whose field ids differ. -/
theorem fieldAddressFollowsTheLayout : Obligations.FieldAddressFollowsTheLayout := by
  refine ⟨rfl, ?lines, ?unassigned, ?address⟩
  case lines =>
    intro fid name base offset container hi lo width hline
    obtain ⟨r, hr, hrow⟩ := List.mem_map.mp (layout_eq_map_fieldTable ▸ hline)
    cases hrow
    exact ⟨fieldRow_of_mem hr, rfl, rfl⟩
  case unassigned =>
    intro fid hfid
    exact fieldRow_eq_none fun r hr => hfid (lineOfRow r) (layout_eq_map_fieldTable ▸ List.mem_map_of_mem hr)
  case address =>
    intro s r h hr
    exact fieldAddress_eq h hr

/-- Settles O33: the start of the layer is what the offset functions give, compared with LEN. -/
theorem offsReturnsTheStart : Obligations.OffsReturnsTheStart := by
  refine ⟨⟨rfl, rfl, rfl, rfl, rfl, rfl, rfl, rfl, rfl, fun _ => layerOfNum_eq_none⟩, fun lid s h => ?_⟩
  refine ⟨decode_encode (.offs lid), ?_⟩
  simp only [exec, execOffs]
  cases layerOfNum lid with
  | none => rfl
  | some l =>
    simp only [orRaise_some, ok_bind, layerStart_eq h]
    cases layerFail s l with
    | some e => rfl
    | none =>
      simp only
      split <;> rfl

/-- Settles O41: the scan reaches the option in one pass for each option before it, which LEN bounds, and answers in
the next pass. -/
theorem dhoptFindsTheFirstOption : Obligations.DhoptFindsTheFirstOption := by
  refine ⟨exec_of_not_wellFormed rfl, ?_⟩
  intro code s os q h hcode ⟨hcookie, hos⟩ hother hq hbyte
  have hend : code.toNat ≠ 255 := fun hcode' => hcode (BitVec.eq_of_toNat_eq hcode')
  have hcount := optionsAt_le hos
  obtain ⟨n, hn⟩ : ∃ n, s.len.toNat + 1 = n + 1 + os.length := ⟨s.len.toNat - os.length, by omega⟩
  have hscan : findOption s code.toNat =
      if s.len.toNat < q + 2 + byteAt s (q + 1) then raise .bounds else .ok (q + 2, byteAt s (q + 1)) := by
    rw [findOption_eq h, hcookie]
    simp only
    rw [hn, scanOptions_skip h hos hother (by omega), scanOptions_pass h hq, hbyte, if_neg hend, if_pos rfl]
  simp only [exec, execDhopt, raiseIf_bind, if_neg hend, hscan]
  split <;> rfl

/-- Settles O14: each word is looked up and its operands are taken out. -/
theorem specWordsDecode : Obligations.SpecWordsDecode :=
  ⟨rfl, rfl, rfl, rfl, rfl, rfl, rfl, rfl, rfl, rfl⟩

end Sys2Proof.EncodingRules
end

section
/-! PROOFS, 40_checksum, part 1: the words of a byte string and their sum (R91, R92). -/

namespace Sys2Proof.Machine

open Sys2Proof.Safety

/-! ### The words of a region (R91) -/

theorem words_length (bs : List Byte) : (words bs).length = (bs.length + 1) / 2 := by
  induction bs using words.induct with
  | case1 => rfl
  | case2 b => simp [words]
  | case3 b c bs ih =>
    simp only [words, List.length_cons, ih]
    omega

/-- A word pairs two bytes of a region, the last word of an odd region the last byte and 0 (R91). -/
theorem words_readBytes_getElem? (s : State) (off len i : Nat) (hi : i < (len + 1) / 2) :
    (words (Memory.readBytes s.era s.fb off len))[i]? =
      some (byteAt s (off + 2 * i) * 256 + if 2 * i + 1 < len then byteAt s (off + 2 * i + 1) else 0) := by
  induction len using Nat.twoStepInduction generalizing off i with
  | zero => omega
  | one =>
    obtain rfl : i = 0 := by omega
    simp [Memory.readBytes, words, byteAt]
  | more len ih _ =>
    cases i with
    | zero => simp [Memory.readBytes, words, byteAt]
    | succ i =>
      have haddr : off + 1 + 1 + 2 * i = off + 2 * (i + 1) := by omega
      have hin : 2 * i + 1 < len ↔ 2 * (i + 1) + 1 < len + 2 := by omega
      simp only [Memory.readBytes, words, List.getElem?_cons_succ, ih (off + 1 + 1) i (by omega), haddr, hin]

/-! ### Their sum (R92) -/

@[simp] theorem wordSum_nil : wordSum [] = 0 := rfl

theorem wordSum_cons_cons (b c : Byte) (bs : List Byte) :
    wordSum (b :: c :: bs) = b.toNat * 256 + c.toNat + wordSum bs := by
  simp only [wordSum, words, List.sum_cons]

theorem word_le {bs : List Byte} : ∀ w ∈ words bs, w ≤ 0xFFFF := by
  induction bs using words.induct with
  | case1 => simp [words]
  | case2 b =>
    have := b.isLt
    simp only [words, List.mem_singleton, forall_eq]
    omega
  | case3 b c bs ih =>
    have := b.isLt
    have := c.isLt
    exact List.forall_mem_cons.mpr ⟨by omega, ih⟩

theorem wordSum_le (bs : List Byte) : wordSum bs ≤ 0xFFFF * ((bs.length + 1) / 2) := by
  have hsum := List.sum_le_card_nsmul (words bs) 0xFFFF word_le
  rwa [words_length, smul_eq_mul, Nat.mul_comm] at hsum

/-- Bytes before which an even number of bytes stands are paired as they are by themselves (R91, R99). -/
theorem wordSum_append {bs : List Byte} (heven : bs.length % 2 = 0) (cs : List Byte) :
    wordSum (bs ++ cs) = wordSum bs + wordSum cs := by
  induction bs using words.induct with
  | case1 => simp
  | case2 b => simp at heven
  | case3 b c bs ih =>
    rw [List.length_cons, List.length_cons] at heven
    rw [List.cons_append, List.cons_append, wordSum_cons_cons, wordSum_cons_cons, ih (by omega),
      ← Nat.add_assoc]

/-- Strings that are all of even length, the last one apart, may be summed one by one (R99). -/
theorem wordSum_flatMap {α : Type} (f : α → List Byte) {xs : List α}
    (heven : ∀ x ∈ xs.dropLast, (f x).length % 2 = 0) :
    wordSum (xs.flatMap f) = (xs.map fun x => wordSum (f x)).sum := by
  induction xs with
  | nil => rfl
  | cons x xs ih =>
    cases xs with
    | nil => simp
    | cons y ys =>
      obtain ⟨hx, hxs⟩ := List.forall_mem_cons.mp heven
      rw [List.flatMap_cons, wordSum_append hx, ih hxs, List.map_cons (l := y :: ys), List.sum_cons]

/-! ### The sum of a region of FB, and what a store outside it leaves -/

theorem wordSumAt_le (s : State) (a n : Nat) : wordSumAt s a n ≤ 0xFFFF * ((n + 1) / 2) := by
  simpa only [wordSumAt, readBytes_length] using wordSum_le (Memory.readBytes s.era s.fb a n)

theorem wordSumAt_add (s : State) (a : Nat) {n : Nat} (heven : n % 2 = 0) (k : Nat) :
    wordSumAt s a (n + k) = wordSumAt s a n + wordSumAt s (a + n) k := by
  rw [wordSumAt, readBytes_add, wordSum_append (by rwa [readBytes_length])]
  rfl

/-- Two bytes are one word. -/
theorem wordSumAt_two (s : State) (a : Nat) : wordSumAt s a 2 = numberAt s a 2 := by
  rw [numberAt_add s a 1 1, numberAt_one, numberAt_one]
  simp [wordSumAt, Memory.readBytes, wordSum_cons_cons, byteAt]

/-- The sum with one word set apart: `j` bytes before it, an even number, and `k` bytes behind it. -/
theorem wordSumAt_around (s : State) (a k : Nat) {j : Nat} (heven : j % 2 = 0) :
    wordSumAt s a (j + 2 + k) = wordSumAt s a j + numberAt s (a + j) 2 + wordSumAt s (a + j + 2) k := by
  rw [wordSumAt_add s a (by omega), wordSumAt_add s a heven, wordSumAt_two, Nat.add_assoc a]

/-- A store changes no byte of a region outside it. -/
theorem readBytes_stored_outside {s : State} {a n b m v : Nat} (hout : b + m ≤ a ∨ a + n ≤ b) :
    Memory.readBytes (s.stored a n v).era (s.stored a n v).fb b m = Memory.readBytes s.era s.fb b m :=
  readBytes_congr fun x hbx hxm => read_writeBytes_outside _ _ (by rw [beBytes_length]; omega)

theorem wordSumAt_stored_outside {s : State} {a n b m v : Nat} (hout : b + m ≤ a ∨ a + n ≤ b) :
    wordSumAt (s.stored a n v) b m = wordSumAt s b m :=
  congrArg wordSum (readBytes_stored_outside hout)

theorem numberAt_stored_outside {s : State} {a n b m v : Nat} (hout : b + m ≤ a ∨ a + n ≤ b) :
    numberAt (s.stored a n v) b m = numberAt s b m :=
  congrArg beValue (readBytes_stored_outside hout)

end Sys2Proof.Machine
end

section
/-! PROOFS, 40_checksum, part 2: folding keeps the residue modulo 0xFFFF and ends after two passes (R93), and what
validates follows from the residue (R94, R100, R101). -/

namespace Sys2Proof.Machine

open Sys2Proof.Safety

/-! ### One pass, and the loop (R93) -/

/-- One pass adds the upper half to the lower half, and no carry is lost. -/
theorem foldPass_toNat (s : BitVec 32) : (foldPass s).toNat = s.toNat % 65536 + s.toNat / 65536 := by
  have hlt := s.isLt
  have hlow : (s &&& 0xFFFF#32).toNat = s.toNat % 65536 := by
    rw [BitVec.toNat_and]
    exact Nat.and_two_pow_sub_one_eq_mod s.toNat 16
  have hhigh : (s >>> 16).toNat = s.toNat / 65536 := by
    rw [BitVec.toNat_ushiftRight, Nat.shiftRight_eq_div_pow]
  rw [foldPass, BitVec.toNat_add, hlow, hhigh, Nat.mod_eq_of_lt (by omega)]

theorem foldPass_le (s : BitVec 32) : (foldPass s).toNat ≤ 0x1FFFE := by
  have hlt := s.isLt
  rw [foldPass_toNat]
  omega

/-- The loop ends where the upper half is 0. -/
theorem upperHalf_eq_zero_iff (s : BitVec 32) : s >>> 16 = 0 ↔ s.toNat ≤ 0xFFFF := by
  have hlt := s.isLt
  rw [← BitVec.toNat_inj, BitVec.toNat_ushiftRight, Nat.shiftRight_eq_div_pow]
  simp only [BitVec.ofNat_eq_ofNat, BitVec.toNat_ofNat, Nat.zero_mod]
  omega

/-- `u` is 0 where `s` is, and otherwise congruent to it modulo 0xFFFF: what every pass of the loop keeps. -/
def SameResidue (s u : BitVec 32) : Prop :=
  (u.toNat = 0 ↔ s.toNat = 0) ∧ u.toNat % 0xFFFF = s.toNat % 0xFFFF

theorem foldPass_sameResidue (s : BitVec 32) : SameResidue s (foldPass s) := by
  unfold SameResidue
  rw [foldPass_toNat]
  omega

theorem foldLoop_sameResidue (n : Nat) (s : BitVec 32) : SameResidue s (foldLoop n s) := by
  induction n generalizing s with
  | zero => exact ⟨Iff.rfl, rfl⟩
  | succ n ih =>
    unfold foldLoop
    split
    · exact ⟨Iff.rfl, rfl⟩
    · obtain ⟨hzero, hmod⟩ := ih (foldPass s)
      obtain ⟨hzero', hmod'⟩ := foldPass_sameResidue s
      exact ⟨hzero.trans hzero', hmod.trans hmod'⟩

/-- Two passes are enough: the first gives at most 0x1FFFE, and of that the second gives at most 0xFFFF. -/
theorem foldLoop_two_le (s : BitVec 32) : (foldLoop 2 s).toNat ≤ 0xFFFF := by
  simp only [foldLoop, upperHalf_eq_zero_iff]
  split
  · assumption
  · split
    · assumption
    · have hle := foldPass_le s
      rw [foldPass_toNat (foldPass s)]
      omega

/-! ### `Fold` and `Fin` (R93, R94) -/

theorem fold_toNat (s : BitVec 32) : (fold s).toNat = (foldLoop 2 s).toNat := by
  have hle := foldLoop_two_le s
  rw [fold, BitVec.toNat_setWidth, Nat.mod_eq_of_lt (by omega)]

/-- `Fold` is the residue modulo 0xFFFF in 1..0xFFFF, and 0 for 0 (R93). -/
theorem fold_residue (s : BitVec 32) :
    ((fold s).toNat = 0 ↔ s.toNat = 0) ∧ (fold s).toNat % 0xFFFF = s.toNat % 0xFFFF := by
  rw [fold_toNat]
  exact foldLoop_sameResidue 2 s

theorem finish_toNat (s : BitVec 32) : (finish s).toNat = 0xFFFF - (fold s).toNat := by
  rw [finish, BitVec.toNat_not]

theorem finish_eq_zero_iff (s : BitVec 32) : finish s = 0 ↔ fold s = 0xFFFF := by
  have hlt := (fold s).isLt
  have hfin := finish_toNat s
  rw [← BitVec.toNat_inj, ← BitVec.toNat_inj]
  simp only [BitVec.ofNat_eq_ofNat, BitVec.toNat_ofNat]
  omega

/-! ### Which sums validate (R100, R101) -/

/-- A sum folds to 0xFFFF exactly where it is a multiple of 0xFFFF and not 0. -/
theorem fold_eq_allOnes_iff (s : BitVec 32) : fold s = 0xFFFF ↔ s.toNat ≠ 0 ∧ s.toNat % 0xFFFF = 0 := by
  obtain ⟨hzero, hmod⟩ := fold_residue s
  have hlt := (fold s).isLt
  rw [← BitVec.toNat_inj]
  simp only [BitVec.ofNat_eq_ofNat, BitVec.toNat_ofNat]
  omega

/-- Which fields `field` complete a sum `t` of other words to one that validates (R101). -/
theorem finish_add_eq_zero_iff {t : Nat} {field : BitVec 16} (ht : t + 0xFFFF < 2 ^ 32) :
    finish (BitVec.ofNat 32 (t + field.toNat)) = 0 ↔
      field = finish (BitVec.ofNat 32 t) ∨ (fold (BitVec.ofNat 32 t) = 0xFFFF ∧ field = 0xFFFF) := by
  have hfield := field.isLt
  have hfold := (fold (BitVec.ofNat 32 t)).isLt
  have hfin := finish_toNat (BitVec.ofNat 32 t)
  obtain ⟨hzero, hmod⟩ := fold_residue (BitVec.ofNat 32 t)
  have hsum : (BitVec.ofNat 32 (t + field.toNat)).toNat = t + field.toNat := Nat.mod_eq_of_lt (by omega)
  have hrest : (BitVec.ofNat 32 t).toNat = t := Nat.mod_eq_of_lt (by omega)
  rw [hrest] at hzero hmod
  rw [finish_eq_zero_iff, fold_eq_allOnes_iff, hsum, ← BitVec.toNat_inj, ← BitVec.toNat_inj,
    ← BitVec.toNat_inj, hfin]
  simp only [BitVec.ofNat_eq_ofNat, BitVec.toNat_ofNat]
  omega

/-- The field that `Fin` computes validates (R100). -/
theorem validates_add_finish {t : Nat} (ht : t + 0xFFFF < 2 ^ 32) :
    validates (t + (finish (BitVec.ofNat 32 t)).toNat) = true := by
  rw [validates, beq_iff_eq]
  exact (finish_add_eq_zero_iff ht).mpr (.inl rfl)

end Sys2Proof.Machine
end

section
/-! PROOFS, 40_checksum, part 3: ACC, ACCPH and FIN (R96 to R98), and a run of ACCs (R99). -/

namespace Sys2Proof.Machine

open Sys2Proof.Safety

/-! ### Adding to SUM, and FIN -/

theorem add_ofNat_eq (x : BitVec 32) (t : Nat) : x + BitVec.ofNat 32 t = BitVec.ofNat 32 (x.toNat + t) := by
  rw [BitVec.ofNat_add, BitVec.ofNat_toNat, BitVec.setWidth_eq]

/-- The end of ACC and of ACCPH: the carry out of bit 31 is lost (R96, R97, R102). -/
theorem returned_addToSum (s : State) (t : Nat) :
    (addToSum s t).1.returned (addToSum s t).2 =
      { s with
        sum := BitVec.ofNat 32 (s.sum.toNat + t)
        res := BitVec.ofNat 64 ((s.sum.toNat + t) % 2 ^ 32)
        st := 0 } := by
  rw [← BitVec.toNat_ofNat, ← add_ofNat_eq]
  rfl

/-- FIN in every state (R98). -/
theorem exec_fin_eq (s : State) : exec .fin s = .next ((clearSum s).returned (finish s.sum).toNat) := rfl

section
variable {s : State} (h : s.len.toNat ≤ s.cap.toNat)
include h

/-! ### ACC and ACCPH in states with LEN at most CAP (R24) -/

theorem exec_acc_eq (off len : BitVec 16) :
    exec (.acc off len) s =
      if s.len.toNat < off.toNat + len.toNat then .next (s.raised .bounds)
      else .next ((addToSum s (wordSumAt s off.toNat len.toNat)).1.returned
        (addToSum s (wordSumAt s off.toNat len.toNat)).2) := by
  simp only [exec, execAcc, readRange_eq h]
  split <;> rfl

theorem exec_acc_below {off len : BitVec 16} (hin : off.toNat + len.toNat ≤ s.len.toNat) :
    exec (.acc off len) s = .next ((addToSum s (wordSumAt s off.toNat len.toNat)).1.returned
      (addToSum s (wordSumAt s off.toNat len.toNat)).2) := by
  rw [exec_acc_eq h, if_neg (Nat.not_lt.mpr hin)]

/-- From SUM 0, ACC of one region and then FIN return the checksum of the region and leave SUM 0 (R99). -/
theorem exec_acc_fin {off len : BitVec 16} (hsum : s.sum = 0) (hin : off.toNat + len.toNat ≤ s.len.toNat) :
    ∃ t, exec (.acc off len) s = .next t ∧
      exec .fin t = .next ((clearSum s).returned
        (finish (BitVec.ofNat 32 (wordSumAt s off.toNat len.toNat))).toNat) := by
  refine ⟨_, exec_acc_below h hin, ?_⟩
  rw [exec_fin_eq, returned_sum, addToSum_sum, hsum, BitVec.ofNat_eq_ofNat, BitVec.zero_add]
  rfl

/-- A read raises nothing but Bounds, so in front of a line that raises Bounds it makes no difference. -/
theorem memRead_bind_raise_bounds {α : Type} (a n : Nat) :
    (memRead s a n >>= fun _ => (raise .bounds : Eval α)) = raise .bounds := by
  rw [memRead_eq h]
  split <;> rfl

/-- The pseudo-header's last address word ends at 34 (R95). -/
theorem pseudoSum_eq (proto len : Nat) :
    pseudoSum s proto len = if s.len.toNat < 34 then raise .bounds else .ok (pseudoSumAt s proto len) := by
  unfold pseudoSum
  by_cases hlen : s.len.toNat < 34
  · have hlast : memRead s 32 2 = raise .bounds := by rw [memRead_eq h, if_pos (by omega)]
    simp only [hlast, raise_bind, memRead_bind_raise_bounds h, if_pos hlen]
  · have hread : ∀ a, a + 2 ≤ 34 → memRead s a 2 = .ok (numberAt s a 2) := fun a ha => memRead_below h (by omega)
    simp only [hread 26 (by decide), hread 28 (by decide), hread 30 (by decide), hread 32 (by decide), ok_bind,
      if_neg hlen]
    rfl

theorem exec_accph_eq (len : BitVec 16) :
    exec (.accph len) s =
      if s.len.toNat < 34 then .next (s.raised .bounds)
      else .next ((addToSum s (pseudoSumAt s (byteAt s 23) len.toNat)).1.returned
        (addToSum s (pseudoSumAt s (byteAt s 23) len.toNat)).2) := by
  simp only [exec, execAccph, pseudoSum_eq h]
  by_cases hlen : s.len.toNat < 34
  · simp only [if_pos hlen, raise_bind, memRead_bind_raise_bounds h, conclude_raise]
  · have hproto : memRead s 23 1 = .ok (byteAt s 23) := memRead_byte_below h (by omega)
    simp only [if_neg hlen, hproto, ok_bind]
    rfl

/-! ### A run of ACCs (R99) -/

/-- ACCs over regions below LEN all go on, and SUM grows by the sums of the regions, modulo 2^32. -/
theorem runInstrs_accs {regions : List (BitVec 16 × BitVec 16)}
    (hin : ∀ r ∈ regions, r.1.toNat + r.2.toNat ≤ s.len.toNat) (is : List Instr) :
    ∃ t, runInstrs (regions.map (fun r => .acc r.1 r.2) ++ is) s = runInstrs is t ∧
      t.sum = BitVec.ofNat 32 (s.sum.toNat + (regions.map fun r => wordSumAt s r.1.toNat r.2.toNat).sum) := by
  induction regions generalizing s with
  | nil => exact ⟨s, rfl, by simp⟩
  | cons r rs ih =>
    obtain ⟨hr, hrs⟩ := List.forall_mem_cons.mp hin
    obtain ⟨t, hrun, hsum⟩ := ih (s := (addToSum s (wordSumAt s r.1.toNat r.2.toNat)).1.returned
      (addToSum s (wordSumAt s r.1.toNat r.2.toNat)).2) h hrs
    refine ⟨t, ?_, ?_⟩
    · simp only [List.map_cons, List.cons_append, runInstrs, exec_acc_below h hr, hrun]
    · rw [hsum, returned_sum, addToSum_sum, ← add_ofNat_eq, List.map_cons, List.sum_cons, ← add_ofNat_eq,
        BitVec.ofNat_add, ← BitVec.add_assoc]
      rfl

end

end Sys2Proof.Machine
end

section
/-! PROOFS, 40_checksum, part 4: IPv4 frames whose header is supplied, their verdict (R161), and the header checksum
that makes it 1 (R239). -/

namespace Sys2Proof.Machine

open Sys2Proof.Safety

/-! ### IPv4 frames -/

/-- LEN is at most CAP (R24), and below LEN stand the type IPv4 and a whole header (R112, R161). -/
structure IpFrame (s : State) : Prop where
  len_le : s.len.toNat ≤ s.cap.toNat
  type : numberAt s 12 2 = 0x0800
  ihl : ihlFail s = none
  header : 14 + 4 * ihlNibble s ≤ s.len.toNat

/-- The header length stands in front of the checksum field. -/
theorem ihlNibble_stored_ipCsum (s : State) (v : Nat) : ihlNibble (s.stored 24 2 v) = ihlNibble s := by
  rw [ihlNibble, byteAt_stored_outside (.inl (by decide)), ihlNibble]

section
variable {s : State}

/-- The smallest header is of five words. -/
theorem IpFrame.nibble_range (hs : IpFrame s) : 5 ≤ ihlNibble s ∧ ihlNibble s < 16 :=
  ⟨(ihlFail_none hs.ihl).2, ihlNibble_lt s⟩

theorem IpFrame.stored_ipCsum (hs : IpFrame s) (v : Nat) : IpFrame (s.stored 24 2 v) where
  len_le := hs.len_le
  type := by rw [numberAt_stored_outside (.inl (by decide)), hs.type]
  ihl := by
    rw [ihlFail, ihlNibble_stored_ipCsum]
    exact hs.ihl
  header := by
    rw [ihlNibble_stored_ipCsum]
    exact hs.header

theorem IpFrame.returned (hs : IpFrame s) (v : Nat) : IpFrame (s.returned v) :=
  ⟨hs.len_le, hs.type, hs.ihl, hs.header⟩

theorem IpFrame.clearSum (hs : IpFrame s) : IpFrame (clearSum s) := ⟨hs.len_le, hs.type, hs.ihl, hs.header⟩

theorem IpFrame.isIp_eq (hs : IpFrame s) : isIp s = .ok (validates (wordSumAt s 14 (4 * ihlNibble s))) := by
  have hnibble := hs.nibble_range
  have hheader := hs.header
  have hread : memRead s 12 2 = .ok 0x0800 := by rw [memRead_below hs.len_le (by omega), hs.type]
  simp only [isIp, hread, ok_bind, ne_eq, not_true_eq_false, if_false, ihl_eq hs.len_le, hs.ihl, walked_none,
    raiseIf_bind, if_neg (Nat.not_lt.mpr hheader), readRange_eq hs.len_le]
  rfl

/-- ISIP tells whether the words of the header validate (R161). -/
theorem IpFrame.exec_isip (hs : IpFrame s) :
    exec .isip s =
      .next ((Machine.clearSum s).returned (verdict (validates (wordSumAt s 14 (4 * ihlNibble s))))) := by
  rw [exec, execIsip, hs.clearSum.isIp_eq]
  rfl

/-- SETF IP_CSUM stores its value at FB 24, and nothing of the old field stays (R141). -/
theorem IpFrame.exec_setf_ipCsum (hs : IpFrame s) (v : BitVec 16) :
    exec (.setf 0x18 (v.setWidth 48)) s = .next ((s.stored 24 2 v.toNat).returned v.toNat) := by
  have hnibble := hs.nibble_range
  have hlen : 24 + 2 ≤ s.len.toNat := le_trans (by omega) hs.header
  have hv : (v.setWidth 48).toNat = v.toNat := BitVec.toNat_setWidth_of_le (by decide)
  have hfits : (v.setWidth 48).toNat < 2 ^ 16 := hv.trans_lt v.isLt
  have hput : putSlice (numberAt s 24 2) 15 0 v.toNat = v.toNat := by
    have hlt := numberAt_lt s 24 2
    simp only [putSlice]
    omega
  rw [exec_setf_stores (r := ⟨0x18, .ipCsum, .net, 10, 2, 15, 0⟩) (a := 24) hs.len_le rfl hfits rfl hlen, hv, hput]

/-! ### The header checksum (R147, R239) -/

/-- What ACC over the header and FIN compute from SUM 0. -/
def headerChecksum (s : State) : BitVec 16 := finish (BitVec.ofNat 32 (wordSumAt s 14 (4 * ihlNibble s)))

/-- From SUM 0, ACC over the header and FIN leave its checksum in RES, and the frame as it was. -/
theorem IpFrame.acc_fin (hs : IpFrame s) (hsum : s.sum = 0) :
    ∃ t, exec (.acc 14 (BitVec.ofNat 16 (4 * ihlNibble s))) s = .next t ∧
      exec .fin t = .next ((Machine.clearSum s).returned (headerChecksum s).toNat) := by
  obtain ⟨-, hnibble⟩ := hs.nibble_range
  have hregion : (BitVec.ofNat 16 (4 * ihlNibble s)).toNat = 4 * ihlNibble s := Nat.mod_eq_of_lt (by omega)
  have hin : (14#16).toNat + (BitVec.ofNat 16 (4 * ihlNibble s)).toNat ≤ s.len.toNat := by
    rw [hregion]
    exact hs.header
  obtain ⟨t, hacc, hfin⟩ := exec_acc_fin hs.len_le hsum hin
  rw [hregion] at hfin
  exact ⟨t, hacc, hfin⟩

/-- The sum of an IPv4 header of `n` words, cut at its checksum field. -/
theorem wordSumAt_header (s : State) {n : Nat} (hn : 5 ≤ n) :
    wordSumAt s 14 (4 * n) = wordSumAt s 14 10 + numberAt s 24 2 + wordSumAt s 26 (4 * n - 12) := by
  obtain ⟨k, hk⟩ : ∃ k, 4 * n = 10 + 2 + k := ⟨4 * n - 12, by omega⟩
  rw [hk, wordSumAt_around s 14 k (by decide), Nat.add_sub_cancel_left]

/-- Where the checksum field was 0, storing a checksum there adds it to the sum of the header. -/
theorem wordSumAt_header_stored {n v : Nat} (hn : 5 ≤ n) (hzero : numberAt s 24 2 = 0) (hv : v < 2 ^ 16) :
    wordSumAt (s.stored 24 2 v) 14 (4 * n) = wordSumAt s 14 (4 * n) + v := by
  rw [wordSumAt_header _ hn, wordSumAt_header s hn, hzero, numberAt_stored hv,
    wordSumAt_stored_outside (.inl (by decide)), wordSumAt_stored_outside (.inr (by decide))]
  omega

/-- A header with a cleared checksum field validates once its checksum is stored there (R239). -/
theorem IpFrame.validates_sealed (hs : IpFrame s) (hzero : numberAt s 24 2 = 0) :
    validates (wordSumAt (s.stored 24 2 (headerChecksum s).toNat) 14 (4 * ihlNibble s)) = true := by
  obtain ⟨hnibble, hnibble'⟩ := hs.nibble_range
  have hle := wordSumAt_le s 14 (4 * ihlNibble s)
  rw [wordSumAt_header_stored hnibble hzero (headerChecksum s).isLt]
  exact validates_add_finish (by omega)

/-- ISIP is true of such a frame. -/
theorem IpFrame.exec_isip_sealed (hs : IpFrame s) (hzero : numberAt s 24 2 = 0) (v : Nat) :
    ∃ t, exec .isip ((s.stored 24 2 (headerChecksum s).toNat).returned v) = .next t ∧ t.res = 1 ∧ t.st = 0 := by
  refine ⟨_, ((hs.stored_ipCsum _).returned v).exec_isip, ?_, rfl⟩
  have hvalid := hs.validates_sealed hzero
  rw [← ihlNibble_stored_ipCsum s (headerChecksum s).toNat] at hvalid
  rw [returned_res]
  exact congrArg (fun b => BitVec.ofNat 64 (verdict b)) hvalid

/-- The checksum in RES, as SETF takes it for an operand. -/
theorem returned_res_setWidth (s : State) (v : BitVec 16) : (s.returned v.toNat).res.setWidth 48 = v.setWidth 48 := by
  rw [returned_res, BitVec.ofNat_toNat, BitVec.setWidth_setWidth_of_le v (by decide)]

end

end Sys2Proof.Machine
end

section
/-! PROOFS, 40_checksum, part 5: the statements. -/

namespace Sys2Proof.ChecksumRules

open Sys2Proof.Machine Sys2Proof.Safety

/-- Settles O22: the complement of 16 bits is 0xFFFF minus them. -/
theorem finIsOnesComplementOfFold : Obligations.FinIsOnesComplementOfFold :=
  fun s => ⟨finish_toNat s, rfl, finish_eq_zero_iff s⟩

/-- Settles O25: FIN has no line that raises. -/
theorem finReturnsAndClears : Obligations.FinReturnsAndClears := by
  refine ⟨decode_encode .fin, fun s => ?_⟩
  rw [← finish_toNat]
  exact exec_fin_eq s

/-- Settles O19, two bytes at a time. -/
theorem wordsPairBytesBigEndian : Obligations.WordsPairBytesBigEndian := fun s off len =>
  ⟨by rw [words_length, readBytes_length], words_readBytes_getElem? s off len⟩

/-- Settles O20: every word is at most 0xFFFF. -/
theorem wordSumIsBounded : Obligations.WordSumIsBounded := by
  intro bs
  have hle := wordSum_le bs
  exact ⟨rfl, hle, fun hlen => by omega⟩

/-- Settles O21: every pass keeps the residue modulo 0xFFFF, and after two passes the sum has 16 bits. -/
theorem foldIsResidueModFFFF : Obligations.FoldIsResidueModFFFF := by
  intro s
  obtain ⟨hzero, hmod⟩ := fold_residue s
  have hiff : fold s = 0 ↔ s = 0 := by rw [← BitVec.toNat_inj, ← BitVec.toNat_inj]; exact hzero
  have hlt := (fold s).isLt
  refine ⟨(upperHalf_eq_zero_iff _).mpr (foldLoop_two_le s), foldPass_le s, fold_toNat s, hiff, fun hs => ?_⟩
  have hpos : (fold s).toNat ≠ 0 := fun h0 => hs (hiff.mp (BitVec.eq_of_toNat_eq h0))
  exact ⟨by omega, by omega, hmod⟩

/-- Settles O23: the bounds check is on LEN alone, and the addition wraps. -/
theorem accAddsTheRegion : Obligations.AccAddsTheRegion := fun off len s h =>
  ⟨decode_encode (.acc off len), by rw [exec_acc_eq h, returned_addToSum]; rfl⟩

/-- Settles O24: the byte at 23 and the address words are all supplied exactly where LEN is at least 34. -/
theorem accphAddsThePseudoHeader : Obligations.AccphAddsThePseudoHeader := fun len s h =>
  ⟨decode_encode (.accph len), by rw [exec_accph_eq h, returned_addToSum]; rfl⟩

/-- Settles O26: the ACCs add the sums of the regions, which is the sum of their concatenation, as only the last has
an odd length; FIN takes the complement of what it folds to. -/
theorem accSequenceIsTheInternetChecksum : Obligations.AccSequenceIsTheInternetChecksum := by
  intro regions s h hsum hin heven _
  obtain ⟨t, hrun, htotal⟩ := runInstrs_accs h hin [.fin]
  have hconcat : wordSum (regions.flatMap fun r => Memory.readBytes s.era s.fb r.1.toNat r.2.toNat) =
      (regions.map fun r => wordSumAt s r.1.toNat r.2.toNat).sum :=
    wordSum_flatMap _ fun r hr => by rw [readBytes_length]; exact heven r hr
  have hzero : s.sum.toNat = 0 := by rw [hsum]; rfl
  refine ⟨(clearSum t).returned (finish t.sum).toNat, hrun, rfl, rfl, ?_⟩
  rw [returned_res, htotal, hzero, Nat.zero_add, checksum, hconcat, BitVec.ofNat_toNat]

/-- Settles O27: a sum validates exactly where it is a multiple of 0xFFFF and not 0. -/
theorem twoZerosValidate : Obligations.TwoZerosValidate := fun _ _ => finish_add_eq_zero_iff

/-- Settles O28: with the field cleared FIN computes the checksum of the rest of the header, and stored in the field it
makes the whole header validate; type and header length stand outside the field. -/
theorem resealedHeaderIsValid : Obligations.ResealedHeaderIsValid := by
  intro s h hsum htype hihl hlen
  have hs : IpFrame s := ⟨h, htype, hihl, hlen⟩
  have hclear : IpFrame ((s.stored 24 2 0).returned 0) := (hs.stored_ipCsum 0).returned 0
  have hzero : numberAt (s.stored 24 2 0) 24 2 = 0 := numberAt_stored (by decide)
  have hnibble : ihlNibble ((s.stored 24 2 0).returned 0) = ihlNibble s := ihlNibble_stored_ipCsum s 0
  obtain ⟨t, hacc, hfin⟩ := hclear.acc_fin hsum
  have hfilled := hclear.clearSum.returned (headerChecksum ((s.stored 24 2 0).returned 0)).toNat
  have hstore := hfilled.exec_setf_ipCsum (headerChecksum ((s.stored 24 2 0).returned 0))
  obtain ⟨u, hisip, hres, hst⟩ := hfilled.exec_isip_sealed hzero _
  rw [hnibble] at hacc
  rw [← returned_res_setWidth] at hstore
  exact ⟨_, t, _, _, u, hs.exec_setf_ipCsum 0, hacc, hfin, hstore, hisip, hres, hst⟩

end Sys2Proof.ChecksumRules
end

section
/-! PROOFS, 41_codec_layouts, part 1: where the option scan stops without an answer, and what the three operations that
seek an option raise then (R131, R146, R168). -/

namespace Sys2Proof.Machine

open Sys2Proof.Safety

/-! ### The end of the scan (R131) -/

section
variable {s : State} (h : s.len.toNat ≤ s.cap.toNat)
include h

theorem memRead_byte_unsupplied {a : Nat} (ha : s.len.toNat ≤ a) : memRead s a 1 = raise .bounds := by
  rw [memRead_eq h, if_pos (Nat.lt_succ_of_le ha)]

/-- A pass that reads the terminator. -/
theorem scanOptions_terminator {q : Nat} (hq : q < s.len.toNat) (hend : byteAt s q = 255) (code n : Nat) :
    scanOptions s code (n + 1) q = raise .notFound := by
  simp only [scanOptions, memRead_byte_below h hq, ok_bind, raiseIf_bind, hend, if_true]

/-- A scan whose next length byte is not supplied raises Bounds, however many passes it has left. -/
theorem scanOptions_unsupplied {p : Nat} (hp : s.len.toNat < p + 2)
    (hend : p < s.len.toNat → byteAt s p ≠ 255) (code n : Nat) : scanOptions s code n p = raise .bounds := by
  cases n with
  | zero => rfl
  | succ n =>
    by_cases hcode : p < s.len.toNat
    · have hlength := memRead_byte_unsupplied h (Nat.lt_succ_iff.mp hp)
      simp only [scanOptions, memRead_byte_below h hcode, ok_bind, raiseIf_bind, if_neg (hend hcode), hlength,
        raise_bind]
    · simp only [scanOptions, memRead_byte_unsupplied h (Nat.not_lt.mp hcode), raise_bind]

/-- A scan with other options before the missing byte: they may themselves run off the supplied bytes, and it is then
one of them that stops it, in the same way. -/
theorem scanOptions_cutOff {os : List (Nat × Nat)} {p q code : Nat} (hos : OptionsAt s p os q)
    (hother : ∀ o ∈ os, o.1 ≠ code ∧ o.1 ≠ 255) (hq : s.len.toNat < q + 2)
    (hend : q < s.len.toNat → byteAt s q ≠ 255) (n : Nat) : scanOptions s code n p = raise .bounds := by
  induction os generalizing p n with
  | nil =>
    obtain rfl : p = q := hos
    exact scanOptions_unsupplied h hq hend code n
  | cons o os ih =>
    obtain ⟨c, l⟩ := o
    obtain ⟨hcode, hlength, hrest⟩ := hos
    obtain ⟨⟨hne, hnotEnd⟩, hothers⟩ := List.forall_mem_cons.mp hother
    by_cases hp : p + 2 ≤ s.len.toNat
    · cases n with
      | zero => rfl
      | succ n =>
        rw [scanOptions_pass h hp, hcode, hlength, if_neg hnotEnd, if_neg hne]
        exact ih hrest hothers n
    · exact scanOptions_unsupplied h (Nat.not_le.mp hp) (fun _ => hcode ▸ hnotEnd) code n

/-! ### `FindOpt` where it raises -/

theorem findOption_cookieFail {e : Exc} (hcookie : cookieFail s = some e) (code : Nat) :
    findOption s code = raise e := by
  rw [findOption_eq h, hcookie]

/-- The passes suffice to reach a terminator below LEN, as every option before it takes two bytes. -/
theorem findOption_terminator {os : List (Nat × Nat)} {q code : Nat} (hbefore : OptionsBefore s os q)
    (hother : ∀ o ∈ os, o.1 ≠ code ∧ o.1 ≠ 255) (hq : q < s.len.toNat) (hend : byteAt s q = 255) :
    findOption s code = raise .notFound := by
  obtain ⟨hcookie, hos⟩ := hbefore
  have hcount := optionsAt_le hos
  obtain ⟨n, hn⟩ : ∃ n, s.len.toNat + 1 = n + 1 + os.length := ⟨s.len.toNat - os.length, by omega⟩
  rw [findOption_eq h, hcookie]
  simp only
  rw [hn, scanOptions_skip h hos hother hq.le, scanOptions_terminator h hq hend]

theorem findOption_cutOff {os : List (Nat × Nat)} {q code : Nat} (hbefore : OptionsBefore s os q)
    (hother : ∀ o ∈ os, o.1 ≠ code ∧ o.1 ≠ 255) (hq : s.len.toNat < q + 2)
    (hend : q < s.len.toNat → byteAt s q ≠ 255) : findOption s code = raise .bounds := by
  obtain ⟨hcookie, hos⟩ := hbefore
  rw [findOption_eq h, hcookie]
  exact scanOptions_cutOff h hos hother hq hend _

end

/-! ### The operations that seek an option (R146, R168) -/

/-- The operation seeks the option with this code: DHOPT the code of its operand, the two predicates the message
type, 53. -/
def Seeks (i : Instr) (code : BitVec 8) : Prop :=
  i = .dhopt code ∨ (code = 53 ∧ (i = .isoffer ∨ i = .isack))

/-- The line in front of `FindOpt` raises nothing that `FindOpt` would not raise. -/
theorem dhcpType_of_findOption_raise {s : State} {e : Exc} (hfind : findOption s 53 = raise e) (want : Nat) :
    dhcpType s want = raise e := by
  cases hd : dhb s with
  | error stop =>
    rw [findOption, hd] at hfind
    obtain rfl : stop = .raise e := Except.error.inj hfind
    rw [dhcpType, hd]
    rfl
  | ok d => rw [dhcpType, hd, hfind]; rfl

/-- What `FindOpt` raises, the operation that seeks the option raises. -/
theorem Seeks.exec_raised {i : Instr} {code : BitVec 8} {s : State} {e : Exc} (hi : Seeks i code) (hcode : code ≠ 255)
    (hfind : findOption s code.toNat = raise e) : exec i s = .next (s.raised e) := by
  obtain rfl | ⟨rfl, rfl | rfl⟩ := hi
  case inl =>
    have hend : code.toNat ≠ 255 := fun hcode' => hcode (BitVec.eq_of_toNat_eq hcode')
    simp only [exec, execDhopt, raiseIf_bind, if_neg hend, hfind, raise_bind, answer_raise]
  case inr.inl =>
    rw [exec, execIsoffer, dhcpType_of_findOption_raise hfind]
    rfl
  case inr.inr =>
    rw [exec, execIsack, dhcpType_of_findOption_raise hfind]
    rfl

end Sys2Proof.Machine
end

section
/-! PROOFS, 41_codec_layouts, part 2: the statements. -/

namespace Sys2Proof.CodecLayoutRules

open Sys2Proof.Machine Sys2Proof.Safety

/-- Settles O40: each of the three operations seeks some option, and `FindOpt` checks the cookie before its loop. -/
theorem dhcpOperationsNeedTheCookie : Obligations.DhcpOperationsNeedTheCookie := by
  intro i s e h hi hcookie
  obtain ⟨code, hcode, hseeks⟩ : ∃ code, code ≠ 255 ∧ Seeks i code := by
    obtain hoffer | hack | ⟨code, hdhopt, hcode⟩ := hi
    · exact ⟨53, by decide, .inr ⟨rfl, .inl hoffer⟩⟩
    · exact ⟨53, by decide, .inr ⟨rfl, .inr hack⟩⟩
    · exact ⟨code, hcode, .inl hdhopt⟩
  exact hseeks.exec_raised hcode (findOption_cookieFail h hcookie code.toNat)

/-- Settles O42: the other options are skipped one pass each until the terminator is read, or until a code or a length
byte is not supplied. -/
theorem optionScanEnds : Obligations.OptionScanEnds := by
  intro i code s os q h hi hcode hbefore hother
  have hseeks : Seeks i code := hi
  refine ⟨fun hq hend => ?terminator, fun hq => ?suppliedEnd, fun hq hend => ?lengthMissing⟩
  case terminator => exact hseeks.exec_raised hcode (findOption_terminator h hbefore hother hq hend)
  case suppliedEnd =>
    exact hseeks.exec_raised hcode (findOption_cutOff h hbefore hother (by omega) fun hlt => absurd hq hlt.not_ge)
  case lengthMissing => exact hseeks.exec_raised hcode (findOption_cutOff h hbefore hother (by omega) fun _ => hend)

end Sys2Proof.CodecLayoutRules
end

section
/-! PROOFS, 42_codec_ops, part 1: where GETF, SETF and STBE raise, the length of a layer that PLEN finds in the frame,
and the bytes that STBE leaves. -/

namespace Sys2Proof.Machine

open Sys2Proof.Safety

/-! ### Fields (R128, R140, R141) -/

/-- MQ_RLEN is a whole byte (R126). -/
theorem mqRlen_shape : ∀ r ∈ fieldTable, r.name = .mqRlen → r.container = 1 ∧ r.hi = 7 ∧ r.lo = 0 := by decide

/-- Cutting MQ_RLEN out of its container leaves it as it is. -/
theorem slice_mqRlen {r : FieldRow} (hr : r ∈ fieldTable) (hname : r.name = .mqRlen) (s : State) (a : Nat) :
    slice (numberAt s a r.container) r.hi r.lo = numberAt s a r.container := by
  obtain ⟨hcontainer, hhi, hlo⟩ := mqRlen_shape r hr hname
  have hbyte : numberAt s a 1 < 256 ^ 1 := numberAt_lt s a 1
  rw [hcontainer, hhi, hlo, slice]
  omega

/-- A value is above the field's limit where it is wider than the slice, or an MQ_RLEN with its top bit set. -/
theorem fieldLimit_le_of_not_fits {r : FieldRow} (hr : r ∈ fieldTable) {v : Nat}
    (hv : 2 ^ (r.hi - r.lo + 1) ≤ v ∨ (r.name = .mqRlen ∧ 128 ≤ v)) : fieldLimit r ≤ v := by
  obtain hwide | ⟨hname, htop⟩ := hv
  · exact (fieldLimit_le_width r hr).trans hwide
  · rwa [fieldLimit, if_pos hname]

section
variable {s : State} (h : s.len.toNat ≤ s.cap.toNat) {fid : BitVec 8} {r : FieldRow} (hr : fieldRow fid = some r)
include h hr

theorem exec_getf_fieldFail {e : Exc} (hfail : fieldFail s r = some e) :
    exec (.getf fid) s = .next (s.raised e) := by
  simp only [exec, execGetf, hr, orRaise_some, ok_bind, fieldAddress_eq h (fieldRow_inv hr).1, hfail, walked_some,
    raise_bind, answer_raise]

/-- GETF of a field whose place is known (R140): Bounds comes before Format. -/
theorem exec_getf_found (hfound : fieldFail s r = none) :
    exec (.getf fid) s =
      if s.len.toNat < baseAt s r.base + r.offset + r.container then .next (s.raised .bounds)
      else if r.name = .mqRlen ∧ 128 ≤ numberAt s (baseAt s r.base + r.offset) r.container then
        .next (s.raised .format)
      else .next (s.returned (slice (numberAt s (baseAt s r.base + r.offset) r.container) r.hi r.lo)) := by
  have hrow := (fieldRow_inv hr).1
  have hformat : ∀ a, (r.name = .mqRlen ∧ 128 ≤ slice (numberAt s a r.container) r.hi r.lo) ↔
      (r.name = .mqRlen ∧ 128 ≤ numberAt s a r.container) := fun a =>
    and_congr_right fun hname => by rw [slice_mqRlen hrow hname]
  simp only [exec, execGetf, hr, orRaise_some, ok_bind, fieldAddress_eq h hrow, hfound, walked_none, memRead_eq h]
  by_cases hlen : s.len.toNat < baseAt s r.base + r.offset + r.container
  · rw [if_pos hlen, if_pos hlen, raise_bind, answer_raise]
  · simp only [if_neg hlen, ok_bind, raiseIf_bind, hformat]
    split <;> rfl

/-- SETF finds the field only after the value has fitted (R141). -/
theorem exec_setf_fieldFail {value : BitVec 48} (hv : value.toNat < fieldLimit r) {e : Exc}
    (hfail : fieldFail s r = some e) : exec (.setf fid value) s = .next (s.raised e) := by
  simp only [exec, execSetf, hr, orRaise_some, ok_bind, raiseIf_bind, if_neg (Nat.not_le.mpr hv),
    fieldAddress_eq h (fieldRow_inv hr).1, hfail, walked_some, raise_bind, conclude_raise]

/-- SETF reads the container before it writes, so a missing byte leaves all of it as it was. -/
theorem exec_setf_bounds {value : BitVec 48} (hv : value.toNat < fieldLimit r) (hfound : fieldFail s r = none)
    (hlen : s.len.toNat < baseAt s r.base + r.offset + r.container) :
    exec (.setf fid value) s = .next (s.raised .bounds) := by
  simp only [exec, execSetf, hr, orRaise_some, ok_bind, raiseIf_bind, if_neg (Nat.not_le.mpr hv),
    fieldAddress_eq h (fieldRow_inv hr).1, hfound, walked_none, memRead_eq h, if_pos hlen, raise_bind, conclude_raise]

end

/-! ### The length of a layer (R129, R143) -/

/-- PLEN looks for the start of the layer before its length. -/
theorem exec_plen_of_layerStart {s : State} {lid : BitVec 8} {l : Layer} {e : Exc} (hl : layerOfNum lid = some l)
    (hstart : layerStart s l = raise e) : exec (.plen lid) s = .next (s.raised e) := by
  simp only [exec, execPlen, hl, orRaise_some, ok_bind, hstart, raise_bind, answer_raise]

section
variable {s : State} (h : s.len.toNat ≤ s.cap.toNat)
include h

theorem udpLength_below (hihl : ihlFail s = none) (hlen : payloadAt s + 6 ≤ s.len.toNat) :
    udpLength s = .ok (numberAt s (payloadAt s + 4) 2) := by
  have hread : memRead s (payloadAt s + 4) 2 = .ok (numberAt s (payloadAt s + 4) 2) := memRead_below h hlen
  rw [udpLength, ipp_eq h, hihl, walked_none, ok_bind, hread]

/-- The total length stands in front of every payload. -/
theorem totalLength_below (hihl : ihlFail s = none) (hlen : payloadAt s ≤ s.len.toNat) :
    totalLength s = .ok (numberAt s 16 2) := by
  obtain ⟨-, hnibble⟩ := ihlFail_none hihl
  rw [payloadAt] at hlen
  exact memRead_below h (by omega)

/-- A layer that starts at or below LEN has its length fields below LEN; only an MQTT length can still raise. -/
theorem layerLength_of_starts {l : Layer} (hl : l ≠ .mqbody) (hfound : layerFail s l = none)
    (hstart : layerAt s l ≤ s.len.toNat) : layerLength s l = .ok (layerSize s l) := by
  cases l with
  | mqbody => exact absurd rfl hl
  | frame | net => rfl
  | ipopt =>
    have hihl : ihlFail s = none := hfound
    simp only [layerLength, ihl_eq h, hihl, walked_none, ok_bind, layerSize]
  | tcpopt =>
    have hdoff : doffFail s = none := hfound
    simp only [layerLength, doff_eq h, hdoff, walked_none, ok_bind, layerSize]
  | ippay =>
    have hihl : ihlFail s = none := hfound
    simp only [layerLength, totalLength_below h hihl hstart, ihl_eq h, hihl, walked_none, ok_bind, layerSize]
  | tcppay =>
    have hdoff : doffFail s = none := hfound
    have hihl := ihlFail_of_doffFail hdoff
    have hpayload : payloadAt s ≤ s.len.toNat := (Nat.le_add_right _ _).trans hstart
    simp only [layerLength, totalLength_below h hihl hpayload, ihl_eq h, hihl, doff_eq h, hdoff, walked_none, ok_bind,
      layerSize]
  | udppay | dhopt =>
    have hpayload : payloadAt s + 6 ≤ s.len.toNat := (Nat.add_le_add_left (by decide) _).trans hstart
    simp only [layerLength, udpLength_below h hfound hpayload, ok_bind, layerSize]

/-- The body of an MQTT packet starts behind its remaining length, whose bit 7 raises Format (R126). -/
theorem layerLength_mqbody (hfound : layerFail s .mqbody = none) (hstart : layerAt s .mqbody ≤ s.len.toNat) :
    layerLength s .mqbody =
      if 128 ≤ layerSize s .mqbody then raise .format else .ok (layerSize s .mqbody) := by
  have hdoff : doffFail s = none := hfound
  have hread : memRead s (tcpPayloadAt s + 1) 1 = .ok (byteAt s (tcpPayloadAt s + 1)) := memRead_byte_below h hstart
  have htop : 128 ≤ layerSize s .mqbody ↔ 128 ≤ byteAt s (tcpPayloadAt s + 1) := by rw [layerSize]; omega
  simp only [layerLength, remainingLength, tcpp_eq h, hdoff, walked_none, ok_bind, hread, raiseIf_bind, htop]
  split <;> rfl

/-- The length of a layer that starts at or below LEN (R129). -/
theorem layerLength_eq {l : Layer} (hfound : layerFail s l = none) (hstart : layerAt s l ≤ s.len.toNat) :
    layerLength s l =
      if l = .mqbody ∧ 128 ≤ layerSize s l then raise .format else .ok (layerSize s l) := by
  by_cases hl : l = .mqbody
  · subst hl
    simp only [layerLength_mqbody h hfound hstart, true_and]
  · rw [layerLength_of_starts h hl hfound hstart, if_neg fun hmq => hl hmq.1]

/-- PLEN of a layer that starts at or below LEN (R143). -/
theorem exec_plen_found {lid : BitVec 8} {l : Layer} (hl : layerOfNum lid = some l) (hfound : layerFail s l = none)
    (hstart : layerAt s l ≤ s.len.toNat) :
    exec (.plen lid) s =
      if l = .mqbody ∧ 128 ≤ layerSize s l then .next (s.raised .format)
      else if layerSize s l < 0 then .next (s.raised .format)
      else if (s.len.toNat : Int) < layerAt s l + layerSize s l then .next (s.raised .bounds)
      else .next (s.returned (layerSize s l).toNat) := by
  simp only [exec, execPlen, hl, orRaise_some, ok_bind, layerStart_eq h, hfound, if_neg (Nat.not_lt.mpr hstart),
    layerLength_eq h hfound hstart]
  by_cases hmq : l = .mqbody ∧ 128 ≤ layerSize s l
  · rw [if_pos hmq, if_pos hmq, raise_bind, answer_raise]
  · rw [if_neg hmq, if_neg hmq, ok_bind, raiseIf_bind]
    by_cases hneg : layerSize s l < 0
    · rw [if_pos hneg, if_pos hneg, answer_raise]
    · have hend : s.len.toNat < layerAt s l + (layerSize s l).toNat ↔
          (s.len.toNat : Int) < layerAt s l + layerSize s l := by omega
      rw [if_neg hneg, if_neg hneg, raiseIf_bind]
      simp only [hend]
      split <;> rfl

end

/-! ### LDBE and STBE (R69, R144, R145) -/

/-- Only 1, 2 and 4 are byte counts (R69). -/
theorem byteCount_eq_none {n : BitVec 8} (hn : n ≠ 1 ∧ n ≠ 2 ∧ n ≠ 4) : byteCount n = none := by
  obtain ⟨h1, h2, h4⟩ := hn
  cases hk : byteCount n with
  | none => rfl
  | some k =>
    obtain ⟨rfl, hone | htwo | hfour⟩ := byteCount_inv hk
    · exact absurd (BitVec.eq_of_toNat_eq hone) h1
    · exact absurd (BitVec.eq_of_toNat_eq htwo) h2
    · exact absurd (BitVec.eq_of_toNat_eq hfour) h4

theorem stbeFits_eq_false {n : BitVec 8} {value : BitVec 32}
    (hbad : n ≠ 1 ∧ n ≠ 2 ∧ n ≠ 4 ∨ 2 ^ (8 * n.toNat) ≤ value.toNat) : stbeFits n value = false := by
  cases hk : byteCount n with
  | none => rw [stbeFits, hk]
  | some k =>
    obtain ⟨rfl, -⟩ := byteCount_inv hk
    obtain hn | hwide := hbad
    · rw [byteCount_eq_none hn] at hk
      cases hk
    · rw [stbeFits_of_count hk, decide_eq_false (Nat.not_lt.mpr hwide)]

/-- Byte `i` of a stored number is its byte `i` from the top (R41). -/
theorem byteAt_stored {s : State} {a n v i : Nat} (hv : v < 256 ^ n) (hi : i < n) :
    byteAt (s.stored a n v) (a + i) = v / 256 ^ (n - 1 - i) % 256 := by
  rw [← numberAt_one, numberAt_stored_part hv hi, Nat.sub_right_comm, Nat.pow_one]

section
variable {s : State} (h : s.len.toNat ≤ s.cap.toNat) {n : BitVec 8} (hn : n = 1 ∨ n = 2 ∨ n = 4) {off : BitVec 16}
include h hn

theorem exec_ldbe_bounds (hlen : s.len.toNat < off.toNat + n.toNat) :
    exec (.ldbe n off) s = .next (s.raised .bounds) := by
  simp only [exec, execLdbe, byteCount_of_legal hn, orRaise_some, ok_bind, memRead_eq h, if_pos hlen, answer_raise]

theorem exec_stbe_bounds {value : BitVec 32} (hv : value.toNat < 2 ^ (8 * n.toNat))
    (hlen : s.len.toNat < off.toNat + n.toNat) : exec (.stbe n off value) s = .next (s.raised .bounds) := by
  simp only [exec, execStbe, byteCount_of_legal hn, orRaise_some, ok_bind, raiseIf_bind,
    if_neg (Nat.not_le.mpr hv), memWrite_eq h, if_pos hlen, raise_bind, conclude_raise]

end

end Sys2Proof.Machine
end

section
/-! PROOFS, 42_codec_ops, part 2: the statements. -/

namespace Sys2Proof.CodecOperationRules

open Sys2Proof.Machine Sys2Proof.Safety

/-- Settles O30: the container is read where the field lies; for MQ_RLEN the field is the whole container. -/
theorem getfReturnsTheField : Obligations.GetfReturnsTheField := by
  intro fid s h
  refine ⟨decode_encode (.getf fid), ?_⟩
  cases hr : fieldRow fid with
  | none => exact exec_of_not_wellFormed (by simp only [Instr.wellFormed, hr, Option.isSome_none]) s
  | some r =>
    dsimp only
    cases hfail : fieldFail s r with
    | some e => exact exec_getf_fieldFail h hr hfail
    | none => exact exec_getf_found h hr hfail

/-- Settles O31: the checks of the word come first, and the container is read before it is written. -/
theorem setfRaisesBeforeItWrites : Obligations.SetfRaisesBeforeItWrites := by
  intro fid value s h
  refine ⟨fun hnone => ?unassigned, fun r hr => ⟨fun hbad => ?tooWide, fun hv e hfail => ?notFound,
    fun hv hfound hlen => ?notBelowLen⟩⟩
  case unassigned => exact exec_of_not_wellFormed (by simp only [Instr.wellFormed, setfFits, hnone]) s
  case tooWide =>
    have hlimit := fieldLimit_le_of_not_fits (fieldRow_inv hr).1 hbad
    have hfits : setfFits fid value = false := by
      rw [setfFits_of_row hr, decide_eq_false (Nat.not_lt.mpr hlimit)]
    exact exec_of_not_wellFormed (i := .setf fid value) hfits s
  case notFound => exact exec_setf_fieldFail h hr hv hfail
  case notBelowLen => exact exec_setf_bounds h hr hv hfound hlen

/-- Settles O34: a layer that starts at or below LEN has its length fields below LEN, so PLEN raises Bounds only for
the start and for the end. -/
theorem plenReturnsTheLength : Obligations.PlenReturnsTheLength := by
  intro lid s h
  refine ⟨decode_encode (.plen lid), ?_⟩
  cases hl : layerOfNum lid with
  | none => exact exec_of_not_wellFormed (by simp only [Instr.wellFormed, hl, Option.isSome_none]) s
  | some l =>
    dsimp only
    cases hfail : layerFail s l with
    | some e => exact exec_plen_of_layerStart hl (by rw [layerStart_eq h, hfail])
    | none =>
      dsimp only
      by_cases hstart : s.len.toNat < layerAt s l
      · rw [if_pos hstart]
        exact exec_plen_of_layerStart hl (by rw [layerStart_eq h, hfail]; exact if_pos hstart)
      · rw [if_neg hstart]
        exact exec_plen_found h hl hfail (Nat.not_lt.mp hstart)

/-- Settles O35: the byte count is looked at first, then LEN. -/
theorem ldbeLoadsBigEndian : Obligations.LdbeLoadsBigEndian := by
  intro n off s h
  refine ⟨decode_encode (.ldbe n off), ?_⟩
  by_cases hbad : n ≠ 1 ∧ n ≠ 2 ∧ n ≠ 4
  · rw [if_pos hbad]
    exact exec_of_not_wellFormed (by simp only [Instr.wellFormed, byteCount_eq_none hbad, Option.isSome_none]) s
  · have hn : n = 1 ∨ n = 2 ∨ n = 4 := by tauto
    rw [if_neg hbad]
    by_cases hlen : s.len.toNat < off.toNat + n.toNat
    · rw [if_pos hlen]
      exact exec_ldbe_bounds h hn hlen
    · rw [if_neg hlen]
      exact exec_ldbe_loads h hn (Nat.not_lt.mp hlen)

/-- Settles O37: both Operand checks need the word alone, and the region is checked before the first byte is
written. -/
theorem stbeRaisesBeforeItWrites : Obligations.StbeRaisesBeforeItWrites := fun n off value s h =>
  ⟨fun hbad => exec_of_not_wellFormed (i := .stbe n off value) (stbeFits_eq_false hbad) s,
    fun hn hv hlen => exec_stbe_bounds h hn hv hlen⟩

/-- Settles O38: what is stored is the number's bytes in network order, and nothing outside them. -/
theorem stbeStoresBigEndian : Obligations.StbeStoresBigEndian := by
  intro n off value s h hn hv hlen
  have hbytes : value.toNat < 256 ^ n.toNat := by rwa [Nat.pow_mul] at hv
  exact ⟨_, exec_stbe_stores h hn hv hlen, BitVec.ofNat_toNat 64 value, rfl, fun i hi => byteAt_stored hbytes hi,
    fun x hx => byteAt_stored_outside hx, rfl, rfl, rfl, rfl, rfl, rfl, rfl⟩

end Sys2Proof.CodecOperationRules
end

section
/-! PROOFS, 43_classifier, part 1: how a predicate ends, and one rule for each kind of line in its pseudocode, in states
with LEN at most CAP (R24, R160). -/

namespace Sys2Proof.Machine

open Sys2Proof.Safety

/-- The end of a predicate in state `u`: RES gets 1 or 0, or the exception is taken (R13, R160, R203). -/
def judged (u : State) (x : Eval Bool) : Host.Outcome State Fault Refusal := answer u (x.map verdict)

section
variable {u : State}

theorem judged_raise (e : Exc) : judged u (raise e) = .next (u.raised e) := rfl

theorem judged_false : judged u (.ok false) = .next (u.returned 0) := rfl

theorem judged_decide (p : Prop) [Decidable p] :
    judged u (.ok (decide p)) = .next { u with res := if p then 1 else 0, st := 0 } := by
  by_cases hp : p
  · rw [if_pos hp, decide_eq_true hp]; rfl
  · rw [if_neg hp, decide_eq_false hp]; rfl

/-- The last line of most predicates: two values are compared. -/
theorem judged_beq {α : Type} [DecidableEq α] (a b : α) :
    judged u (.ok (a == b)) = .next { u with res := if a = b then 1 else 0, st := 0 } := judged_decide (a = b)

/-- A sum of words validates where `Fin` of it is 0 (R100). -/
theorem judged_validates (t : Nat) :
    judged u (.ok (validates t)) =
      .next { u with res := if finish (BitVec.ofNat 32 t) = 0 then 1 else 0, st := 0 } := judged_beq _ _

theorem judged_ite (c : Prop) [Decidable c] (x y : Eval Bool) :
    judged u (if c then x else y) = if c then judged u x else judged u y := apply_ite _ _ _ _

/-- A condition that ends the predicate where it is false (R160). -/
theorem judged_test (c : Prop) [Decidable c] (x : Eval Bool) :
    judged u (if c then .ok false else x) = if c then .next (u.returned 0) else judged u x := judged_ite _ _ _

theorem judged_guard (c : Prop) [Decidable c] (e : Exc) (f : Unit → Eval Bool) :
    judged u (raiseIf c e >>= f) = if c then .next (u.raised e) else judged u (f ()) := by
  rw [raiseIf_bind, judged_ite, judged_raise]

/-- A line that needs the IPv4 header length (R112, R113). -/
theorem judged_walked {s : State} {x : Eval Nat} {v : Nat} (hx : x = walked (ihlFail s) v) (f : Nat → Eval Bool) :
    judged u (x >>= f) =
      if s.len.toNat < 15 then .next (u.raised .bounds)
      else if ihlNibble s < 5 then .next (u.raised .format)
      else judged u (f v) := by
  rw [hx, ihlFail]
  split
  · rfl
  · split <;> rfl

end

section
variable {s : State} (h : s.len.toNat ≤ s.cap.toNat) {u : State}
include h

theorem judged_read (a n : Nat) (f : Nat → Eval Bool) :
    judged u (memRead s a n >>= f) =
      if s.len.toNat < a + n then .next (u.raised .bounds) else judged u (f (numberAt s a n)) := by
  rw [memRead_eq h]
  split <;> rfl

/-- The first lines of ISPING, ISUDP and ISTCP (R165 to R167): the protocol, then the IPv4 header length, whose byte is
supplied where the protocol's is. -/
theorem judged_protocol {proto v : Nat} {x : Eval Nat} {f : Nat → Eval Bool}
    {o : Host.Outcome State Fault Refusal} (hx : x = walked (ihlFail s) v)
    (hrest : 24 ≤ s.len.toNat → 5 ≤ ihlNibble s → judged u (f v) = o) :
    judged u (memRead s 23 1 >>= fun p => if p ≠ proto then .ok false else x >>= f) =
      if s.len.toNat < 24 then .next (u.raised .bounds)
      else if byteAt s 23 ≠ proto then .next (u.returned 0)
      else if ihlNibble s < 5 then .next (u.raised .format)
      else o := by
  rw [judged_read h, judged_test, judged_walked hx, numberAt_one]
  by_cases hlen : s.len.toNat < 24
  · rw [if_pos hlen, if_pos hlen]
  · rw [if_neg hlen, if_neg hlen, if_neg (show ¬ s.len.toNat < 15 by omega)]
    by_cases hnibble : ihlNibble s < 5
    · rw [if_pos hnibble, if_pos hnibble]
    · rw [if_neg hnibble, if_neg hnibble, hrest (Nat.not_lt.mp hlen) (Nat.not_lt.mp hnibble)]

/-- A region that was compared with LEN is read whole. -/
theorem judged_guard_read (a n : Nat) (f : List Byte → Eval Bool) :
    judged u (raiseIf (s.len.toNat < a + n) .bounds >>= fun _ => readRange s a n >>= f) =
      if s.len.toNat < a + n then .next (u.raised .bounds)
      else judged u (f (Memory.readBytes s.era s.fb a n)) := by
  rw [judged_guard, readRange_eq h]
  split <;> rfl

/-- The last lines of ISUDP and ISTCP (R166, R167): a segment behind the IPv4 header has the pseudo-header's words below
LEN. -/
theorem judged_segment {b : Nat} (hb : 34 ≤ b) (proto len : Nat) :
    judged u (segmentValidates s proto b len) =
      if s.len.toNat < b + len then .next (u.raised .bounds)
      else .next { u with
        res := if finish (BitVec.ofNat 32 (pseudoSumAt s proto len + wordSumAt s b len)) = 0 then 1 else 0
        st := 0 } := by
  rw [segmentValidates, pseudoSum_eq h, judged_guard]
  by_cases hlen : s.len.toNat < b + len
  · rw [if_pos hlen, if_pos hlen]
  · rw [if_neg hlen, if_neg hlen, if_neg (show ¬ s.len.toNat < 34 by omega), readRange_eq h, if_neg hlen]
    exact judged_validates _

end

end Sys2Proof.Machine
end

section
/-! PROOFS, 43_classifier, part 2: the message type that ISOFFER and ISACK find, and the TCP flags (R168, R171). -/

namespace Sys2Proof.Machine

open Sys2Proof.Safety

/-- Where the magic cookie is supplied, so are the IPv4 header length and the fixed part of the DHCP message (R123). -/
theorem cookieFail_none {s : State} (hcookie : cookieFail s = none) :
    ihlFail s = none ∧ payloadAt s + 248 ≤ s.len.toNat := by
  unfold cookieFail at hcookie
  split at hcookie
  · cases hcookie
  · split at hcookie
    · cases hcookie
    · exact ⟨‹_›, by omega⟩

section
variable {s : State} (h : s.len.toNat ≤ s.cap.toNat) {u : State}
include h

/-- `FindOpt` where an option with the code is behind others: LEN bounds the passes it takes (R131). -/
theorem findOption_found {os : List (Nat × Nat)} {q code : Nat} (hbefore : OptionsBefore s os q)
    (hother : ∀ o ∈ os, o.1 ≠ code ∧ o.1 ≠ 255) (hq : q + 2 ≤ s.len.toNat) (hbyte : byteAt s q = code)
    (hcode : code ≠ 255) :
    findOption s code =
      if s.len.toNat < q + 2 + byteAt s (q + 1) then raise .bounds else .ok (q + 2, byteAt s (q + 1)) := by
  obtain ⟨hcookie, hos⟩ := hbefore
  have hcount := optionsAt_le hos
  obtain ⟨n, hn⟩ : ∃ n, s.len.toNat + 1 = n + 1 + os.length := ⟨s.len.toNat - os.length, by omega⟩
  have hpasses : findOption s code = scanOptions s code (n + 1 + os.length) (payloadAt s + 248) := by
    rw [findOption_eq h, hcookie, ← hn]
  rw [hpasses, scanOptions_skip h hos hother (by omega), scanOptions_pass h hq, hbyte, if_neg hcode, if_pos rfl]

/-- `DhcpType` where option 53 is found: the type byte is looked at before the hardware address (R168). -/
theorem judged_dhcpType {os : List (Nat × Nat)} {q : Nat} (hbefore : OptionsBefore s os q)
    (hother : ∀ o ∈ os, o.1 ≠ 53 ∧ o.1 ≠ 255) (hq : q + 2 ≤ s.len.toNat) (hbyte : byteAt s q = 53) (want : Nat) :
    judged u (dhcpType s want) =
      if s.len.toNat < q + 2 + byteAt s (q + 1) then .next (u.raised .bounds)
      else if byteAt s (q + 1) = 0 then .next (u.raised .format)
      else .next { u with
        res := if byteAt s (q + 2) = want ∧ numberAt s (payloadAt s + 36) 6 = s.localMac.toNat then 1 else 0
        st := 0 } := by
  obtain ⟨hihl, hfixed⟩ := cookieFail_none hbefore.1
  have hchaddr : memRead s (payloadAt s + 8 + 28) 6 = .ok (numberAt s (payloadAt s + 36) 6) :=
    memRead_below h (by omega)
  rw [dhcpType, dhb_eq h, hihl, walked_none, ok_bind, findOption_found h hbefore hother hq hbyte (by decide), hchaddr]
  by_cases hvalue : s.len.toNat < q + 2 + byteAt s (q + 1)
  · rw [if_pos hvalue, if_pos hvalue]
    rfl
  · rw [if_neg hvalue, if_neg hvalue, ok_bind]
    dsimp only
    rw [judged_guard]
    by_cases hempty : byteAt s (q + 1) = 0
    · rw [if_pos hempty, if_pos (by omega)]
    · rw [if_neg hempty, if_neg (by omega), memRead_byte_below h (by omega), ok_bind]
      by_cases htype : byteAt s (q + 2) = want
      · rw [if_neg (not_not_intro htype), ok_bind, judged_beq]
        simp only [htype, true_and]
      · rw [if_pos htype, judged_false, if_neg fun hboth => htype hboth.1]
        rfl

/-- The six flags are the low bits of the byte at 13 of the TCP header (R119, R171). -/
theorem judged_flagsAre (pattern : Nat) :
    judged u (flagsAre s pattern) =
      if s.len.toNat < 15 then .next (u.raised .bounds)
      else if ihlNibble s < 5 then .next (u.raised .format)
      else if s.len.toNat < payloadAt s + 14 then .next (u.raised .bounds)
      else .next { u with res := if byteAt s (payloadAt s + 13) % 64 = pattern then 1 else 0, st := 0 } := by
  have hnumber : numberAt s (payloadAt s + 12) 2 =
      byteAt s (payloadAt s + 12) * 256 + byteAt s (payloadAt s + 13) := by
    rw [numberAt_add s _ 1 1, numberAt_one, numberAt_one, Nat.pow_one]
  have hslice : slice (numberAt s (payloadAt s + 12) 2) 5 0 = byteAt s (payloadAt s + 13) % 64 := by
    rw [hnumber, slice]
    omega
  have hlines : flagsAre s pattern = ipp s >>= fun p =>
      memRead s (p + 12) 2 >>= fun f => .ok (slice f 5 0 == pattern) := by
    simp only [flagsAre, tcpFlags, bind_assoc, ok_bind]
  rw [hlines, judged_walked (ipp_eq h), judged_read h, judged_beq, hslice]

end

end Sys2Proof.Machine
end

section
/-! PROOFS, 43_classifier, part 3: what a predicate that holds has read (R176), and its answer in states that agree on
what it reads (R175). -/

namespace Sys2Proof.Machine

open Sys2Proof.Safety

/-- A predicate holds only where its conditions come to true: a raise leaves RES at 0. -/
theorem holds_judged {i : Instr} {s u : State} {x : Eval Bool} (hexec : exec i s = judged u x) (hi : Holds i s) :
    x = .ok true := by
  obtain ⟨t, ht, hres, -⟩ := hi
  rw [hexec] at ht
  match x with
  | .ok true => rfl
  | .ok false | .error (.raise _) => cases ht; exact absurd hres (by decide : (0 : BitVec 64) ≠ 1)
  | .error (.fault _) => cases ht

/-- A test that was passed found its value. -/
theorem read_of_test {x : Eval Nat} {k : Nat} {f : Nat → Eval Bool}
    (h : (x >>= fun v => if v ≠ k then .ok false else f v) = .ok true) : x = .ok k := by
  obtain ⟨v, hx, hv⟩ := bind_ok_iff.mp h
  by_cases hk : v = k
  · rw [hx, hk]
  · rw [if_pos hk] at hv
    cases hv

/-- A comparison that came out true found its value. -/
theorem read_of_beq {x : Eval Nat} {k : Nat} (h : (x >>= fun v => .ok (v == k)) = .ok true) : x = .ok k := by
  obtain ⟨v, hx, hv⟩ := bind_ok_iff.mp h
  rw [hx, eq_of_beq (Except.ok.inj hv)]

/-- Two predicates that need different values of one thing exclude each other. -/
theorem not_both_hold {i j : Instr} {s : State} {x : Eval Nat} {a b : Nat} (hab : a ≠ b)
    (hi : Holds i s → x = .ok a) (hj : Holds j s → x = .ok b) : ¬ (Holds i s ∧ Holds j s) :=
  fun ⟨hholds, hholds'⟩ => hab (Except.ok.inj ((hi hholds).symm.trans (hj hholds')))

/-- The DHCP message type: the first byte of the value of option 53 (R168). -/
def messageType (s : State) : Eval Nat := findOption s 53 >>= fun o => memRead s o.1 1

theorem messageType_of_dhcpType {s : State} {want : Nat} (h : dhcpType s want = .ok true) :
    messageType s = .ok want := by
  obtain ⟨d, -, h⟩ := bind_ok_iff.mp h
  obtain ⟨⟨va, l⟩, hfind, h⟩ := bind_ok_iff.mp h
  obtain ⟨-, -, h⟩ := bind_ok_iff.mp h
  rw [messageType, hfind]
  exact read_of_test h

/-! ### What a predicate that holds has read (R161 to R174) -/

section
variable {s : State}

theorem flags_of_issynack (hi : Holds .issynack s) : tcpFlags s = .ok 0x12 := read_of_beq (holds_judged (u := s) rfl hi)

theorem flags_of_ispshack (hi : Holds .ispshack s) : tcpFlags s = .ok 0x18 := read_of_beq (holds_judged (u := s) rfl hi)

theorem flags_of_isfinack (hi : Holds .isfinack s) : tcpFlags s = .ok 0x11 := read_of_beq (holds_judged (u := s) rfl hi)

theorem type_of_isoffer (hi : Holds .isoffer s) : messageType s = .ok 2 :=
  messageType_of_dhcpType (holds_judged (u := s) rfl hi)

theorem type_of_isack (hi : Holds .isack s) : messageType s = .ok 5 :=
  messageType_of_dhcpType (holds_judged (u := s) rfl hi)

theorem protocol_of_isping (hi : Holds .isping s) : memRead s 23 1 = .ok 1 :=
  read_of_test (holds_judged (u := s) rfl hi)

theorem protocol_of_isudp (hi : Holds .isudp s) : memRead s 23 1 = .ok 17 :=
  read_of_test (holds_judged (u := clearSum s) rfl hi)

theorem protocol_of_istcp (hi : Holds .istcp s) : memRead s 23 1 = .ok 6 :=
  read_of_test (holds_judged (u := clearSum s) rfl hi)

theorem ethType_of_isip (hi : Holds .isip s) : memRead s 12 2 = .ok 0x0800 :=
  read_of_test (holds_judged (u := clearSum s) rfl hi)

theorem ethType_of_isarpreq (hi : Holds .isarpreq s) : memRead s 12 2 = .ok 0x0806 :=
  read_of_test (holds_judged (u := s) rfl hi)

theorem destination_of_isucast (hi : Holds .isucast s) : memRead s 30 4 = .ok s.localIp.toNat :=
  read_of_beq (holds_judged (u := s) rfl hi)

theorem destination_of_isbcast (hi : Holds .isbcast s) : memRead s 30 4 = .ok 0xFFFFFFFF :=
  read_of_beq (holds_judged (u := s) rfl hi)

end

/-! ### The answer in two states -/

/-- The same answer, or the same raise, gives the same RES and ST in any two states. -/
theorem judged_same_response {u u' t : State} {x x' : Eval Bool} (hx : x = x') (h : judged u x = .next t) :
    ∃ t', judged u' x' = .next t' ∧ t'.res = t.res ∧ t'.st = t.st := by
  subst hx
  match x with
  | .ok _ | .error (.raise _) => cases h; exact ⟨_, rfl, rfl, rfl⟩
  | .error (.fault _) => cases h

end Sys2Proof.Machine
end

section
/-! PROOFS, 43_classifier, part 4: the statements. -/

namespace Sys2Proof.ClassifierRules

open Sys2Proof.Machine Sys2Proof.Safety

/-- Settles O43: the lines of ISIP one after another, SUM being cleared before the first. -/
theorem isipChecksTypeAndHeader : Obligations.IsipChecksTypeAndHeader := by
  refine ⟨decode_encode .isip, fun s h => ?_⟩
  change judged (clearSum s) (isIp s) = _
  rw [isIp, judged_read h, judged_test, judged_walked (ihl_eq h), judged_guard_read h, judged_validates]
  rfl

/-- Settles O44: each of the two reads the destination and compares it. -/
theorem addressPredicatesCompareDestination : Obligations.AddressPredicatesCompareDestination := by
  refine ⟨decode_encode .isucast, decode_encode .isbcast, fun s h => ⟨?unicast, ?broadcast⟩⟩
  case unicast =>
    change judged s (isUnicast s) = _
    rw [isUnicast, judged_read h, judged_beq]
    rfl
  case broadcast =>
    change judged s (isBroadcast s) = _
    rw [isBroadcast, judged_read h, judged_beq]
    rfl

/-- Settles O45: three reads, each made only where the test before it has passed. -/
theorem isarpreqChecksInOrder : Obligations.IsarpreqChecksInOrder := by
  refine ⟨decode_encode .isarpreq, fun s h => ?_⟩
  change judged s (isArpRequest s) = _
  rw [isArpRequest, judged_read h, judged_test, judged_read h, judged_test, judged_read h, judged_beq]
  rfl

/-- Settles O46: behind the protocol and the header length, the ICMP type is read and compared. -/
theorem ispingChecksProtocolAndType : Obligations.IspingChecksProtocolAndType := by
  refine ⟨decode_encode .isping, fun s h => ?_⟩
  change judged s (isPing s) = _
  refine judged_protocol h (ipp_eq h) fun _ _ => ?_
  rw [judged_read h, judged_beq, numberAt_one]
  rfl

/-- Settles O47: behind the protocol and the header length, the UDP length is read and the segment of that length
validated. -/
theorem isudpValidatesTheDatagram : Obligations.IsudpValidatesTheDatagram := by
  refine ⟨decode_encode .isudp, fun s h => ?_⟩
  change judged (clearSum s) (isUdp s) = _
  refine judged_protocol h (ipp_eq h) fun _ hnibble => ?_
  have hpayload : 34 ≤ payloadAt s := by unfold payloadAt; omega
  rw [judged_read h, judged_guard, judged_segment h hpayload]
  rfl

/-- Settles O48: the total length, which is supplied where the protocol is, gives the length of the segment to
validate. -/
theorem istcpValidatesTheSegment : Obligations.IstcpValidatesTheSegment := by
  refine ⟨decode_encode .istcp, fun s h => ?_⟩
  change judged (clearSum s) (isTcp s) = _
  refine judged_protocol h (ihl_eq h) fun hlen hnibble => ?_
  rw [memRead_below h (by omega), ok_bind, judged_guard, judged_segment h (by omega)]
  by_cases hshort : numberAt s 16 2 < 4 * ihlNibble s + 20
  · rw [if_pos hshort, if_pos hshort]
    rfl
  · have hend : 14 + 4 * ihlNibble s + (numberAt s 16 2 - 4 * ihlNibble s) = 14 + numberAt s 16 2 := by omega
    rw [if_neg hshort, if_neg hshort, hend]
    rfl

/-- Settles O49: ISOFFER and ISACK are `DhcpType` of their two message types. -/
theorem dhcpTypePredicates : Obligations.DhcpTypePredicates := by
  intro i want s os q h hi hbefore hother hq hbyte
  have hexec : exec i s = judged s (dhcpType s want) := by obtain ⟨rfl, rfl⟩ | ⟨rfl, rfl⟩ := hi <;> rfl
  exact hexec.trans (judged_dhcpType h hbefore hother hq hbyte want)

/-- Settles O50: the three are one comparison with three patterns. -/
theorem flagPredicatesMatchExactly : Obligations.FlagPredicatesMatchExactly := by
  refine ⟨decode_encode .issynack, decode_encode .ispshack, decode_encode .isfinack, fun i pattern s h hi => ?_⟩
  have hexec : exec i s = judged s (flagsAre s pattern) := by
    obtain ⟨rfl, rfl⟩ | ⟨rfl, rfl⟩ | ⟨rfl, rfl⟩ := hi <;> rfl
  exact hexec.trans (judged_flagsAre h pattern)

/-- Settles O51: the predicates of a clause need different values of one read; ISUCAST and ISBCAST need LOCAL_IP and
255.255.255.255 of the same one. -/
theorem predicatesExcludeOneAnother : Obligations.PredicatesExcludeOneAnother := by
  intro s
  refine ⟨⟨?synackPshack, ?synackFinack, ?pshackFinack⟩, ?types, ⟨?pingUdp, ?pingTcp, ?udpTcp⟩, ?ethTypes,
    fun ⟨hucast, hbcast⟩ => ?addresses⟩
  case synackPshack => exact not_both_hold (by decide) flags_of_issynack flags_of_ispshack
  case synackFinack => exact not_both_hold (by decide) flags_of_issynack flags_of_isfinack
  case pshackFinack => exact not_both_hold (by decide) flags_of_ispshack flags_of_isfinack
  case types => exact not_both_hold (by decide) type_of_isoffer type_of_isack
  case pingUdp => exact not_both_hold (by decide) protocol_of_isping protocol_of_isudp
  case pingTcp => exact not_both_hold (by decide) protocol_of_isping protocol_of_istcp
  case udpTcp => exact not_both_hold (by decide) protocol_of_isudp protocol_of_istcp
  case ethTypes => exact not_both_hold (by decide) ethType_of_isip ethType_of_isarpreq
  case addresses =>
    have hread := (destination_of_isucast hucast).symm.trans (destination_of_isbcast hbcast)
    exact BitVec.eq_of_toNat_eq (Except.ok.inj hread)

/-- Settles O52: the conditions of every predicate read the view alone, and RES and ST hold only what they come to. -/
theorem predicatesDependOnTheViewAlone : Obligations.PredicatesDependOnTheViewAlone := by
  intro i s s' t hi hview h
  cases i with
  | isip => exact judged_same_response hview.clearSum.isIp_eq h
  | isudp => exact judged_same_response hview.clearSum.isUdp_eq h
  | istcp => exact judged_same_response hview.clearSum.isTcp_eq h
  | isucast => exact judged_same_response hview.isUnicast_eq h
  | isbcast => exact judged_same_response hview.isBroadcast_eq h
  | isarpreq => exact judged_same_response hview.isArpRequest_eq h
  | isping => exact judged_same_response hview.isPing_eq h
  | isoffer | isack => exact judged_same_response (hview.dhcpType_eq _) h
  | issynack | ispshack | isfinack => exact judged_same_response (hview.flagsAre_eq _) h
  | rdcsr _ | wrcsr _ _ | acc _ _ | accph _ | fin | getf _ | setf _ _ | offs _ | plen _ | ldbe _ _ | stbe _ _ _
  | dhopt _ => simp [predicates] at hi

end Sys2Proof.ClassifierRules
end

section
/-! PROOFS, 44_control, part 1: which numbers name a control register (R66), and what RDCSR and WRCSR come to at the
number of each register (R190, R191). -/

namespace Sys2Proof.Machine

/-! ### Control register numbers (R66) -/

@[simp] theorem csrOfNum_csrNumber (c : Csr) : csrOfNum (csrNumber c) = some c := by cases c <;> rfl

theorem ne_csrNumber_of_unassigned {csr : BitVec 8} (h : csrOfNum csr = none) (c : Csr) : csr ≠ csrNumber c := by
  rintro rfl
  simp at h

theorem ne_of_unassigned {csr : BitVec 8} (h : csrOfNum csr = none) :
    csr ≠ 0 ∧ csr ≠ 1 ∧ csr ≠ 2 ∧ csr ≠ 3 ∧ csr ≠ 4 ∧ csr ≠ 5 ∧ csr ≠ 6 :=
  have hne := ne_csrNumber_of_unassigned h
  ⟨hne .cap, hne .len, hne .localMac, hne .localIp, hne .sum, hne .res, hne .st⟩

/-! ### The end of an operation that returns the content of a register -/

theorem returned_toNat (s : State) {w : Nat} (x : BitVec w) :
    s.returned x.toNat = { s with res := x.setWidth 64, st := 0 } := by
  rw [State.returned, BitVec.ofNat_toNat]
  rfl

/-! ### RDCSR and WRCSR by register (R190, R191) -/

theorem exec_rdcsr_csrNumber (c : Csr) (s : State) :
    exec (.rdcsr (csrNumber c)) s = .next (s.returned (readCsr s c)) := by
  simp only [exec, execRdcsr, csrOfNum_csrNumber, orRaise_some, ok_bind, answer_ok]

theorem exec_wrcsr_csrNumber (c : Csr) (value : BitVec 48) (s : State) :
    exec (.wrcsr (csrNumber c) value) s =
      conclude s (writeCsr s c value.toNat >>= fun t => .ok (t, value.toNat)) := by
  simp only [exec, execWrcsr, csrOfNum_csrNumber, orRaise_some, ok_bind]

theorem exec_rdcsr_unassigned {csr : BitVec 8} (h : csrOfNum csr = none) (s : State) :
    exec (.rdcsr csr) s = .next (s.raised .operand) :=
  exec_of_not_wellFormed (by simp [Instr.wellFormed, h]) s

theorem exec_wrcsr_unassigned {csr : BitVec 8} (h : csrOfNum csr = none) (value : BitVec 48) (s : State) :
    exec (.wrcsr csr value) s = .next (s.raised .operand) :=
  exec_of_not_wellFormed (by simp [Instr.wellFormed, wrcsrFits, h]) s

/-- WRCSR refuses the four read-only registers whatever the value (R191). -/
theorem exec_wrcsr_readOnly {c : Csr} (h : c = .cap ∨ c = .sum ∨ c = .res ∨ c = .st) (value : BitVec 48) (s : State) :
    exec (.wrcsr (csrNumber c) value) s = .next (s.raised .operand) := by
  rw [exec_wrcsr_csrNumber]
  obtain rfl | rfl | rfl | rfl := h <;> rfl

/-- WRCSR LEN compares the value with CAP (R191). -/
theorem exec_wrcsr_len (value : BitVec 48) (s : State) :
    exec (.wrcsr 1 value) s =
      if value.toNat ≤ s.cap.toNat then
        .next { s with len := value.setWidth 16, res := value.setWidth 64, st := 0 }
      else .next (s.raised .operand) := by
  rw [show (1 : BitVec 8) = csrNumber .len from rfl, exec_wrcsr_csrNumber]
  by_cases hfits : value.toNat ≤ s.cap.toNat
  · simp only [writeCsr, if_pos hfits, if_neg (Nat.not_lt.mpr hfits), ok_bind, conclude_ok, returned_toNat,
      BitVec.ofNat_toNat]
  · simp only [writeCsr, if_neg hfits, if_pos (Nat.not_le.mp hfits), raise_bind, conclude_raise]

/-- WRCSR LOCAL_MAC takes every value (R191). -/
theorem exec_wrcsr_localMac (value : BitVec 48) (s : State) :
    exec (.wrcsr 2 value) s = .next { s with localMac := value, res := value.setWidth 64, st := 0 } := by
  rw [show (2 : BitVec 8) = csrNumber .localMac from rfl, exec_wrcsr_csrNumber]
  simp only [writeCsr, ok_bind, conclude_ok, returned_toNat, BitVec.ofNat_toNat, BitVec.setWidth_eq]

/-- WRCSR LOCAL_IP takes the values of 32 bits (R191). -/
theorem exec_wrcsr_localIp (value : BitVec 48) (s : State) :
    exec (.wrcsr 3 value) s =
      if value.toNat < 2 ^ 32 then
        .next { s with localIp := value.setWidth 32, res := value.setWidth 64, st := 0 }
      else .next (s.raised .operand) := by
  rw [show (3 : BitVec 8) = csrNumber .localIp from rfl, exec_wrcsr_csrNumber]
  by_cases hfits : value.toNat < 2 ^ 32
  · simp only [writeCsr, if_pos hfits, if_neg (Nat.not_le.mpr hfits), ok_bind, conclude_ok, returned_toNat,
      BitVec.ofNat_toNat]
  · simp only [writeCsr, if_neg hfits, if_pos (Nat.not_lt.mp hfits), raise_bind, conclude_raise]

end Sys2Proof.Machine
end

section
/-! PROOFS, 44_control, part 2: the statements. -/

namespace Sys2Proof.ControlRules

open Sys2Proof.Machine

/-- Settles O17: the number names one of the seven registers, whose content is returned, or none. -/
theorem rdcsrReturnsTheRegister : Obligations.RdcsrReturnsTheRegister := by
  refine fun csr s => ⟨decode_encode (.rdcsr csr), ?_⟩
  cases hcsr : csrOfNum csr with
  | none =>
    obtain ⟨hcap, hlen, hmac, hip, hsum, hres, hst⟩ := ne_of_unassigned hcsr
    rw [exec_rdcsr_unassigned hcsr, if_neg hcap, if_neg hlen, if_neg hmac, if_neg hip, if_neg hsum, if_neg hres,
      if_neg hst]
    rfl
  | some c =>
    obtain rfl := eq_csrNumber hcsr
    rw [exec_rdcsr_csrNumber]
    cases c with
    | cap | len | localMac | localIp | sum | st => exact congrArg Host.Outcome.next (returned_toNat s _)
    | res => rw [readCsr, returned_toNat, BitVec.setWidth_eq]; rfl

/-- Settles O18: the number names one of the three writable registers, a read-only one, or none. -/
theorem wrcsrWritesOrRefuses : Obligations.WrcsrWritesOrRefuses := by
  refine fun csr value s => ⟨decode_encode (.wrcsr csr value), ?_⟩
  cases hcsr : csrOfNum csr with
  | none =>
    obtain ⟨-, hlen, hmac, hip, -⟩ := ne_of_unassigned hcsr
    rw [exec_wrcsr_unassigned hcsr, if_neg (mt And.left hlen), if_neg hmac, if_neg (mt And.left hip)]
    rfl
  | some c =>
    obtain rfl := eq_csrNumber hcsr
    cases c with
    | cap => exact exec_wrcsr_readOnly (.inl rfl) value s
    | sum => exact exec_wrcsr_readOnly (.inr (.inl rfl)) value s
    | res => exact exec_wrcsr_readOnly (.inr (.inr (.inl rfl))) value s
    | st => exact exec_wrcsr_readOnly (.inr (.inr (.inr rfl))) value s
    | len =>
      simp only [csrNumber, exec_wrcsr_len, true_and]
      rfl
    | localMac => exact exec_wrcsr_localMac value s
    | localIp =>
      simp only [csrNumber, exec_wrcsr_localIp, true_and]
      rfl

end Sys2Proof.ControlRules
end

section
/-! PROOFS, 60_exceptions, part 1: the steps that execute no word (R213, R230), what a raise leaves of the state
(R203), and the exceptions of each operation (R202). -/

namespace Sys2Proof.Machine

open Sys2Proof.Safety

/-! ### Steps that execute no word -/

theorem step_idle {s : State} (h : s.port = []) : step s = .next s := by
  unfold step
  rw [h]

/-- A reset takes effect alike between two commands and during one (R230). -/
theorem step_reset {s : State} {rest : List PortEvent} {w : CmdWord}
    (h : s.port = .reset :: rest ∨ s.port = .resetDuring w :: rest) :
    step s = .next (State.afterReset { s with port := rest }) := by
  unfold step
  obtain h | h := h
  · rw [h]
    rfl
  · rw [h]
    rfl

/-- Where nothing is listed, FB holds what the reset left there (R232). -/
theorem read_nil (era a : Nat) : Memory.read era [] a = Config.fbInit era a := rfl

/-! ### What a raise leaves of the state (R203) -/

/-- An operation that writes RES and ST alone, and ends with a cause code, has raised. -/
theorem answer_raised {s u : State} {r : Eval Nat} (h : answer s r = .next u) (hst : u.st ≠ okCode) :
    ∃ e, u = s.raised e := by
  obtain ⟨v, -, rfl⟩ | ⟨e, -, rfl⟩ := answer_next h
  · exact absurd rfl hst
  · exact ⟨e, rfl⟩

/-- An operation that writes state, and ends with a cause code, has raised and has lost what it wrote. -/
theorem conclude_raised {s u : State} {r : Eval (State × Nat)} (h : conclude s r = .next u)
    (hst : u.st ≠ okCode) : ∃ e, u = s.raised e := by
  obtain ⟨t, v, -, rfl⟩ | ⟨e, -, rfl⟩ := conclude_next h
  · exact absurd rfl hst
  · exact ⟨e, rfl⟩

/-- Of a raise, the validating predicates keep the SUM they cleared; every other operation leaves SUM as it was.
FIN has no line that raises. -/
theorem exec_raised {i : Instr} {s u : State} (h : exec i s = .next u) (hst : u.st ≠ okCode) :
    ∃ e, u = (if validating i then clearSum s else s).raised e := by
  cases i with
  | isip | isudp | istcp => exact answer_raised h hst
  | wrcsr _ _ | acc _ _ | accph _ | setf _ _ | stbe _ _ _ => exact conclude_raised h hst
  | fin =>
    cases h
    exact absurd rfl hst
  | rdcsr _ | getf _ | offs _ | plen _ | ldbe _ _ | dhopt _ | isucast | isbcast | isarpreq | isping | isoffer
  | isack | issynack | ispshack | isfinack => exact answer_raised h hst

theorem validating_iff {i : Instr} : validating i = true ↔ i = .isip ∨ i = .isudp ∨ i = .istcp := by
  simp [validating, or_assoc]

/-! ### The exceptions of each operation (R202) -/

section
variable {α : Type} {es : List Exc} {e : Exc}

theorem RaisesOnly.orRaise (he : e ∈ es) (o : Option α) : RaisesOnly es (orRaise o e) := by
  cases o with
  | none => exact .raise he
  | some a => exact .ok a

/-- WRCSR refuses a register or a value in one way (R191). -/
theorem writeCsr_raises_operand (ho : .operand ∈ es) (s : State) (c : Csr) (v : Nat) :
    RaisesOnly es (writeCsr s c v) := by
  cases c with
  | len => exact .ite (.raise ho) (.ok _)
  | localMac => exact .ok _
  | localIp => exact .ite (.raise ho) (.ok _)
  | cap | sum | res | st => exact .raise ho

/-- Each operation answers OK or raises from its row of R202; the row's exceptions, one by one, are all that its
lines need. -/
theorem exec_respondsWithin (s : State) :
    ∀ i : Instr, (raises i).Forall (· ∈ es) → RespondsWithin es (exec i s)
  | .rdcsr _, ho => answer_respondsWithin (.bind (.orRaise ho _) fun _ _ => .ok _)
  | .wrcsr _ _, ho =>
    conclude_respondsWithin
      (.bind (.orRaise ho _) fun _ _ => .bind (writeCsr_raises_operand ho _ _ _) fun _ _ => .ok _)
  | .acc _ _, hb => conclude_respondsWithin (.bind (readRange_raises s hb _ _) fun _ _ => .ok _)
  | .accph _, hb =>
    conclude_respondsWithin
      (.bind (memRead_raises s hb _ _) fun _ _ => .bind (pseudoSum_raises s hb _ _) fun _ _ => .ok _)
  | .fin, _ => conclude_respondsWithin (s := s) (.ok (clearSum s, _))
  | .getf _, ⟨ho, hb, hf⟩ =>
    answer_respondsWithin (.bind (.orRaise ho _) fun r _ => .bind (fieldAddress_raises s hb hf r) fun _ _ =>
      .bind (memRead_raises s hb _ _) fun _ _ => .guard hf (.ok _))
  | .setf _ _, ⟨ho, hb, hf⟩ =>
    conclude_respondsWithin (.bind (.orRaise ho _) fun r _ => .guard ho <|
      .bind (fieldAddress_raises s hb hf r) fun _ _ => .bind (memRead_raises s hb _ _) fun _ _ =>
        .bind (memWrite_raises s hb _ _ _) fun _ _ => .ok _)
  | .offs _, ⟨ho, hb, hf⟩ => answer_respondsWithin (.bind (.orRaise ho _) fun l _ => layerStart_raises s hb hf l)
  | .plen _, ⟨ho, hb, hf⟩ =>
    answer_respondsWithin (.bind (.orRaise ho _) fun l _ => .bind (layerStart_raises s hb hf l) fun _ _ =>
      .bind (layerLength_raises s hb hf l) fun _ _ => .guard hf <| .guard hb (.ok _))
  | .ldbe _ _, ⟨ho, hb⟩ => answer_respondsWithin (.bind (.orRaise ho _) fun k _ => memRead_raises s hb _ k)
  | .stbe _ _ _, ⟨ho, hb⟩ =>
    conclude_respondsWithin (.bind (.orRaise ho _) fun _ _ => .guard ho <|
      .bind (memWrite_raises s hb _ _ _) fun _ _ => .ok _)
  | .dhopt _, ⟨ho, hb, hf, hn⟩ =>
    answer_respondsWithin (.guard ho <| .bind (findOption_raises s hb hf hn _) fun _ _ => .ok _)
  | .isip, ⟨hb, hf⟩ => answer_respondsWithin (.map _ (isIp_raises _ hb hf))
  | .isucast, hb => answer_respondsWithin (.map _ (isUnicast_raises s hb))
  | .isbcast, hb => answer_respondsWithin (.map _ (isBroadcast_raises s hb))
  | .isarpreq, hb => answer_respondsWithin (.map _ (isArpRequest_raises s hb))
  | .isping, ⟨hb, hf⟩ => answer_respondsWithin (.map _ (isPing_raises s hb hf))
  | .isudp, ⟨hb, hf⟩ => answer_respondsWithin (.map _ (isUdp_raises _ hb hf))
  | .istcp, ⟨hb, hf⟩ => answer_respondsWithin (.map _ (isTcp_raises _ hb hf))
  | .isoffer, ⟨hb, hf, hn⟩ | .isack, ⟨hb, hf, hn⟩ =>
    answer_respondsWithin (.map _ (dhcpType_raises s hb hf hn _))
  | .issynack, ⟨hb, hf⟩ | .ispshack, ⟨hb, hf⟩ | .isfinack, ⟨hb, hf⟩ =>
    answer_respondsWithin (.map _ (flagsAre_raises s hb hf _))

end

end Sys2Proof.Machine
end

section
/-! PROOFS, 60_exceptions, part 2: the statements. -/

namespace Sys2Proof.ExceptionRules

open Sys2Proof.Machine Sys2Proof.Safety

/-- Settles O8: an empty port leaves nothing to take; both reset events give the reset state, whose FB lists nothing
and is numbered one higher. -/
theorem idleAndResetSteps : Obligations.IdleAndResetSteps := fun s _ _ =>
  ⟨step_idle, fun h => ⟨_, step_reset h, rfl, rfl, rfl, rfl, rfl, rfl, rfl, rfl, read_nil (s.era + 1)⟩⟩

/-- Settles O54: a word that decodes raises as its operation does; an illegal word is none of the three validating
predicates and raises in the state it finds. -/
theorem raiseChangesOnlyResAndSt : Obligations.RaiseChangesOnlyResAndSt := by
  intro w s t ht hst
  by_cases hdec : ∃ i, decode w = .ok i
  · obtain ⟨i, hi⟩ := hdec
    rw [execWord_of_decode hi] at ht
    obtain ⟨e, rfl⟩ := exec_raised ht hst
    refine ⟨e, ?_⟩
    simp only [hi, Except.ok.injEq, validating_iff]
    split <;> rfl
  · rw [execWord_of_not_decodes hdec] at ht
    cases ht
    refine ⟨.illegal, ?_⟩
    rw [if_neg]
    · rfl
    · rintro (h | h | h) <;> exact hdec ⟨_, h⟩

/-- Settles O55: the row of the operation is the list that its response stays within. -/
theorem operationsRaiseOnlyWhatIsListed : Obligations.OperationsRaiseOnlyWhatIsListed := by
  intro i s t ht hst
  have hrow : (raises i).Forall (· ∈ raises i) := List.forall_iff_forall_mem.mpr fun _ he => he
  exact (exec_respondsWithin s i hrow t ht).resolve_left hst

end Sys2Proof.ExceptionRules
end

section
/-! PROOFS, 70_reset_and_hazards, part 1: an empty frame, where no byte of FB lies below LEN (R23, R231). -/

namespace Sys2Proof.Machine

open Sys2Proof.Safety

/-- The layer ids 1 to 8 are assigned to layers that do not start at 0 (R68). -/
theorem layerOfNum_not_frame {lid : BitVec 8} (hlow : 1 ≤ lid.toNat) (hhigh : lid.toNat ≤ 8) :
    ∃ l, layerOfNum lid = some l ∧ l ≠ .frame := by
  unfold layerOfNum
  interval_cases lid.toNat
  all_goals exact ⟨_, rfl, nofun⟩

theorem byteCount_legal {n : BitVec 8} (hn : (byteCount n).isSome = true) : n = 1 ∨ n = 2 ∨ n = 4 := by
  by_contra hbad
  rw [byteCount_eq_none (by tauto)] at hn
  cases hn

section
variable {s : State} (hempty : s.len = 0)
include hempty

theorem len_lt_of_empty {k : Nat} (hk : 0 < k) : s.len.toNat < k := by rwa [hempty]

/-- An operation whose first check asks for a byte of the frame stops there. -/
theorem firstCheck_of_empty {k : Nat} {o o' : Host.Outcome State Fault Refusal} :
    (if s.len.toNat < k + 1 then o else o') = o := if_pos (len_lt_of_empty hempty k.succ_pos)

/-- The empty frame fits whatever CAP is, so the rules for states with LEN at most CAP hold of it (R24). -/
theorem len_le_cap_of_empty : s.len.toNat ≤ s.cap.toNat := by
  rw [hempty]
  exact Nat.zero_le _

/-! ### What finds its way through the frame (R112 to R116, R129, R131) -/

theorem ihlFail_of_empty : ihlFail s = some .bounds := if_pos (len_lt_of_empty hempty (by decide))

theorem doffFail_of_empty : doffFail s = some .bounds := doffFail_of_ihlFail (ihlFail_of_empty hempty)

theorem cookieFail_of_empty : cookieFail s = some .bounds := by rw [cookieFail, ihlFail_of_empty hempty]

/-- Finding a field raises Bounds where it reads the frame, and nothing where the base is fixed. -/
theorem fieldFail_of_empty (r : FieldRow) : fieldFail s r = some .bounds ∨ fieldFail s r = none := by
  rw [fieldFail, doffFail_of_empty hempty]
  split
  · exact .inl rfl
  · cases r.base with
    | frame | net => exact .inr rfl
    | ippay | udppay => exact .inl (ihlFail_of_empty hempty)
    | tcppay => exact .inl (doffFail_of_empty hempty)

/-- A container has at least one byte (R45). -/
theorem len_lt_container_of_empty {r : FieldRow} (hr : r ∈ fieldTable) (a : Nat) : s.len.toNat < a + r.container := by
  obtain ⟨-, hbits, -⟩ := fieldTable_shape r hr
  exact len_lt_of_empty hempty (by omega)

/-- The link layer's header has a fixed length; the starts of the layers behind it are read from the frame. -/
theorem layerStart_of_empty {l : Layer} (hl : l ≠ .frame) : layerStart s l = raise .bounds := by
  rw [layerStart_eq (len_le_cap_of_empty hempty)]
  cases l with
  | frame => exact absurd rfl hl
  | net => exact if_pos (len_lt_of_empty hempty (k := 14) (by decide))
  | ipopt | ippay | udppay | dhopt => simp only [layerFail, ihlFail_of_empty hempty]
  | tcpopt | tcppay | mqbody => simp only [layerFail, doffFail_of_empty hempty]

/-! ### The operations -/

theorem exec_getf_of_empty {fid : BitVec 8} (hfid : (fieldRow fid).isSome = true) :
    exec (.getf fid) s = .next (s.raised .bounds) := by
  have h := len_le_cap_of_empty hempty
  obtain ⟨r, hr⟩ := Option.isSome_iff_exists.mp hfid
  obtain hfail | hfound := fieldFail_of_empty hempty r
  · exact exec_getf_fieldFail h hr hfail
  · rw [exec_getf_found h hr hfound, if_pos (len_lt_container_of_empty hempty (fieldRow_inv hr).1 _)]

theorem exec_setf_of_empty {fid : BitVec 8} {value : BitVec 48} (hfits : setfFits fid value = true) :
    exec (.setf fid value) s = .next (s.raised .bounds) := by
  have h := len_le_cap_of_empty hempty
  obtain ⟨r, hr⟩ := Option.isSome_iff_exists.mp (setfFits_assigned hfits)
  rw [setfFits_of_row hr] at hfits
  have hv : value.toNat < fieldLimit r := of_decide_eq_true hfits
  obtain hfail | hfound := fieldFail_of_empty hempty r
  · exact exec_setf_fieldFail h hr hv hfail
  · exact exec_setf_bounds h hr hv hfound (len_lt_container_of_empty hempty (fieldRow_inv hr).1 _)

theorem exec_offs_of_empty {lid : BitVec 8} {l : Layer} (hlid : layerOfNum lid = some l) (hl : l ≠ .frame) :
    exec (.offs lid) s = .next (s.raised .bounds) := by
  simp only [exec, execOffs, hlid, orRaise_some, ok_bind, layerStart_of_empty hempty hl, answer_raise]

theorem exec_plen_of_empty {lid : BitVec 8} {l : Layer} (hlid : layerOfNum lid = some l) (hl : l ≠ .frame) :
    exec (.plen lid) s = .next (s.raised .bounds) :=
  exec_plen_of_layerStart hlid (layerStart_of_empty hempty hl)

/-- A region of LDBE or STBE has at least one byte (R69). -/
theorem len_lt_region_of_empty {n : BitVec 8} (hn : n = 1 ∨ n = 2 ∨ n = 4) (a : Nat) :
    s.len.toNat < a + n.toNat := by
  have hpos : 0 < n.toNat := by obtain rfl | rfl | rfl := hn <;> decide
  exact len_lt_of_empty hempty (by omega)

theorem exec_ldbe_of_empty {n : BitVec 8} (hn : (byteCount n).isSome = true) (off : BitVec 16) :
    exec (.ldbe n off) s = .next (s.raised .bounds) :=
  exec_ldbe_bounds (len_le_cap_of_empty hempty) (byteCount_legal hn)
    (len_lt_region_of_empty hempty (byteCount_legal hn) _)

theorem exec_stbe_of_empty {n : BitVec 8} {value : BitVec 32} (hfits : stbeFits n value = true) (off : BitVec 16) :
    exec (.stbe n off value) s = .next (s.raised .bounds) := by
  have hn := byteCount_legal (stbeFits_legal hfits)
  rw [stbeFits_of_count (byteCount_of_legal hn)] at hfits
  exact exec_stbe_bounds (len_le_cap_of_empty hempty) hn (of_decide_eq_true hfits)
    (len_lt_region_of_empty hempty hn _)

/-- Every predicate reads a byte of the frame before it can answer (R160); the validating ones have cleared SUM by
then (R175). -/
theorem exec_predicate_of_empty {i : Instr} (hi : i ∈ predicates) :
    exec i s = .next { s with sum := if validating i then 0 else s.sum, res := 0, st := 3 } := by
  have h := len_le_cap_of_empty hempty
  have hdhcp := fun i hi => CodecLayoutRules.dhcpOperationsNeedTheCookie i s .bounds h hi (cookieFail_of_empty hempty)
  have hflags := fun i pattern hi => (ClassifierRules.flagPredicatesMatchExactly.2.2.2 i pattern s h hi).trans
    (firstCheck_of_empty hempty)
  cases i with
  | isip => exact (ClassifierRules.isipChecksTypeAndHeader.2 s h).trans (firstCheck_of_empty hempty)
  | isucast => exact (ClassifierRules.addressPredicatesCompareDestination.2.2 s h).1.trans (firstCheck_of_empty hempty)
  | isbcast => exact (ClassifierRules.addressPredicatesCompareDestination.2.2 s h).2.trans (firstCheck_of_empty hempty)
  | isarpreq => exact (ClassifierRules.isarpreqChecksInOrder.2 s h).trans (firstCheck_of_empty hempty)
  | isping => exact (ClassifierRules.ispingChecksProtocolAndType.2 s h).trans (firstCheck_of_empty hempty)
  | isudp => exact (ClassifierRules.isudpValidatesTheDatagram.2 s h).trans (firstCheck_of_empty hempty)
  | istcp => exact (ClassifierRules.istcpValidatesTheSegment.2 s h).trans (firstCheck_of_empty hempty)
  | isoffer => exact hdhcp _ (.inl rfl)
  | isack => exact hdhcp _ (.inr (.inl rfl))
  | issynack => exact hflags _ _ (.inl ⟨rfl, rfl⟩)
  | ispshack => exact hflags _ _ (.inr (.inl ⟨rfl, rfl⟩))
  | isfinack => exact hflags _ _ (.inr (.inr ⟨rfl, rfl⟩))
  | rdcsr _ | wrcsr _ _ | acc _ _ | accph _ | fin | getf _ | setf _ _ | offs _ | plen _ | ldbe _ _ | stbe _ _ _
  | dhopt _ => simp [predicates] at hi

end

end Sys2Proof.Machine
end

section
/-! PROOFS, 70_reset_and_hazards, part 2: the statement. -/

namespace Sys2Proof.ResetRules

open Sys2Proof.Machine Sys2Proof.Safety

/-- Settles O60: no byte lies below LEN, so the first access to FB raises Bounds; the sum 0 folds to 0. -/
theorem emptyFrameRaisesBounds : Obligations.EmptyFrameRaisesBounds := by
  intro s hempty
  have h := len_le_cap_of_empty hempty
  refine ⟨fun i hi => exec_predicate_of_empty hempty hi, fun off len hregion => ?acc, fun len => ?accph,
    fun fid hfid => exec_getf_of_empty hempty hfid, fun fid value hfits => exec_setf_of_empty hempty hfits,
    fun lid hlow hhigh => ?layers, fun n off hn => exec_ldbe_of_empty hempty hn off,
    fun n off value hfits => exec_stbe_of_empty hempty hfits off, fun code hcode => ?dhopt, fun hsum => ?fin⟩
  case acc => exact (exec_acc_eq h off len).trans (if_pos (len_lt_of_empty hempty hregion))
  case accph => exact (exec_accph_eq h len).trans (firstCheck_of_empty hempty)
  case layers =>
    obtain ⟨l, hlid, hl⟩ := layerOfNum_not_frame hlow hhigh
    exact ⟨exec_offs_of_empty hempty hlid hl, exec_plen_of_empty hempty hlid hl⟩
  case dhopt =>
    exact CodecLayoutRules.dhcpOperationsNeedTheCookie (.dhopt code) s .bounds h (.inr (.inr ⟨code, rfl, hcode⟩))
      (cookieFail_of_empty hempty)
  case fin =>
    rw [exec_fin_eq, hsum]
    rfl

end Sys2Proof.ResetRules
end
